-- ==== Sys2Proof/Word.lean ====
section
/-!
DEFINITION. The word width of a core instance and the word type of that width (00_scope.md R2, R3, R6).
-/

namespace Sys2Proof

/-- The build-time word width `W`, with its two legal values (R2). -/
inductive Width where
  | w32
  | w64
  deriving DecidableEq, Repr

/-- `W`, in bits. -/
@[reducible] def Width.bits : Width → Nat
  | .w32 => 32
  | .w64 => 64

/-- A context word, accumulator, working register or output word: `W` unsigned bits, arithmetic modulo `2^W` (R2, R6). -/
abbrev Word (w : Width) := BitVec w.bits

/-- One byte of the host seed buffer (R51). -/
abbrev Byte := BitVec 8

/-- An index into `RES` or `MEM`: eight bits, since `N` = 256 (R3). -/
abbrev Index := BitVec 8

/-- A 32-bit command word (R70). -/
abbrev CommandWord := BitVec 32

/-- `RES` or `MEM`: 256 words (R20, R21). -/
abbrev Bank (w : Width) := Vector (Word w) 256

end Sys2Proof
end

