-- ==== Sys2Proof/Config.lean ====
section
/-!
DEFINITION. What a build of the core fixes (00_scope.md section 3): the variant, which fixes `W` and `BYTE_MODE`, the option
`PEEK_EN`, and the platform's parameters, which are two of the register block and the alignment of output word slots. A
configuration is an argument of the model: State holds it and no step writes it. The model has no value left free here: the one
open value of the spec, the context at reset, is an argument of the reset action (log entry 2).
-/

namespace Sys2Proof

/-- The three legal pairs of `W` and `BYTE_MODE`, under the names of R1. `W = 64` with byte mode is no variant (R4). -/
inductive Variant where
  /-- `W = 32`, byte mode absent. -/
  | isaac32
  /-- `W = 32`, byte mode present. -/
  | isaac32B
  /-- `W = 64`, byte mode absent. -/
  | isaac64
  deriving DecidableEq, Repr

/-- `OUT_HALF_ORDER`: which half of a 64-bit `OUT` sits at the lower address of a split read (R60, D27). -/
inductive HalfOrder where
  | lowFirst
  | highFirst
  deriving DecidableEq, Repr

/-- The parameters of one core instance. -/
structure Config where
  /-- `W` and `BYTE_MODE` (R2, R4). -/
  variant : Variant
  /-- `PEEK_EN` (R5). -/
  peekEn : Bool
  /-- `REG_BASE`, the platform's address of the register block (R60). -/
  regBase : Nat
  /-- `OUT_HALF_ORDER` (R60). -/
  outHalfOrder : HalfOrder
  /-- `OUTBUF_ALIGN`, the platform's byte alignment of output word slots, of any value (R58, D15, U14). The core addresses slots by
  index, so no step depends on it. -/
  outBufAlign : Nat
  deriving DecidableEq, Repr

/-- `W` of the instance (R2). -/
@[reducible] def Config.width (cfg : Config) : Width :=
  match cfg.variant with
  | .isaac32 => .w32
  | .isaac32B => .w32
  | .isaac64 => .w64

/-- `BYTE_MODE = present` (R4). -/
def Config.byteMode (cfg : Config) : Bool :=
  match cfg.variant with
  | .isaac32 => false
  | .isaac32B => true
  | .isaac64 => false

/-- Building a core from the numbers of the parameter table: refused unless `W` is 32 or 64, and refused for `W = 64`
with byte mode (R2, R4, U11). -/
def Config.build (wBits : Nat) (byteMode peekEn : Bool) (regBase : Nat) (order : HalfOrder) (align : Nat) : Option Config :=
  match wBits, byteMode with
  | 32, false => some { variant := .isaac32, peekEn := peekEn, regBase := regBase, outHalfOrder := order, outBufAlign := align }
  | 32, true => some { variant := .isaac32B, peekEn := peekEn, regBase := regBase, outHalfOrder := order, outBufAlign := align }
  | 64, false => some { variant := .isaac64, peekEn := peekEn, regBase := regBase, outHalfOrder := order, outBufAlign := align }
  | _, _ => none

/-- DESIGN CHOICE (log entry 1): the configuration of the constant `State.reset`. It has every command of the opcode
table; `PEEK_EN = 1` is the spec's default (R5); its output slots lie at multiples of `W/8 = 4` bytes. -/
def Config.full : Config :=
  { variant := .isaac32B, peekEn := true, regBase := 0, outHalfOrder := .lowFirst, outBufAlign := 4 }

end Sys2Proof
end

