-- ==== Sys2Proof/Syntax.lean ====
section
/-!
DEFINITION. The command set (30_encoding.md): one constructor of `Instr` per row of the opcode map R76, the row names, a row's
match and mask, and the causes of an illegal command word (60_exceptions.md R212).
-/

namespace Sys2Proof

/-- The twelve commands with their operands. -/
inductive Instr where
  /-- INIT (R100): `ABS`, 1 when the seed is absent, and `LEN`, the declared seed length in bytes. -/
  | init (abs : Bool) (len : BitVec 16)
  /-- NEXT (R162). -/
  | next
  /-- STREAM (R164): `ABS`, 1 when the output buffer is absent, and `COUNT`, the number of words. -/
  | stream (abs : Bool) (count : BitVec 16)
  /-- NEXTB (R171). -/
  | nextb
  /-- ERASE (R190). -/
  | erase
  /-- PEEK.RES (R193). -/
  | peekRes (idx : Index)
  /-- PEEK.MEM (R194). -/
  | peekMem (idx : Index)
  /-- PEEK.A (R195). -/
  | peekA
  /-- PEEK.B (R196). -/
  | peekB
  /-- PEEK.C (R197). -/
  | peekC
  /-- PEEK.CUR (R198). -/
  | peekCur
  /-- PEEK.BIDX (R199). -/
  | peekBidx
  deriving DecidableEq, Repr

/-- The rows of the opcode map R76. -/
inductive Row where
  | init | next | stream | nextb | erase
  | peekRes | peekMem | peekA | peekB | peekC | peekCur | peekBidx
  deriving DecidableEq, Repr

/-- What R76 gives a row: a word selects it when `(w & mask) = pattern`. -/
structure RowBits where
  pattern : CommandWord
  mask : CommandWord
  deriving DecidableEq, Repr

/-- Why a command word is illegal (R212). -/
inductive Cause where
  /-- Cause 1, `UNASSIGNED_OPCODE`. -/
  | unassignedOpcode
  /-- Cause 2, `RESERVED_FIELD`. -/
  | reservedField
  /-- Cause 3, `FEATURE_ABSENT`. -/
  | featureAbsent
  deriving DecidableEq, Repr

end Sys2Proof
end

