-- ==== Sys2Proof/WellFormed.lean ====
section
/-!
DEFINITION. When a command exists in a configuration (30_encoding.md R76, R79). Every operand value fits its field by its
type, so the checks are those on the configuration.
-/

namespace Sys2Proof

/-- The command belongs to the configuration: NEXTB needs byte mode, every PEEK needs `PEEK_EN = 1`, and PEEK.BIDX needs
both (R76, R79). -/
def Instr.wellFormed (cfg : Config) : Instr → Bool
  | .init _ _ => true
  | .next => true
  | .stream _ _ => true
  | .nextb => cfg.byteMode
  | .erase => true
  | .peekRes _ => cfg.peekEn
  | .peekMem _ => cfg.peekEn
  | .peekA => cfg.peekEn
  | .peekB => cfg.peekEn
  | .peekC => cfg.peekEn
  | .peekCur => cfg.peekEn
  | .peekBidx => cfg.peekEn && cfg.byteMode

end Sys2Proof
end

