-- ==== Sys2Proof/Decode.lean ====
section
/-!
DEFINITION. The decoder of R75, total on 32-bit words and rejecting by cause, and after it the encoder, written from the
fields of R71. The fields are pulled out here and nowhere else.
-/

namespace Sys2Proof

/-- `OP = w[3:0]` (R71). -/
def opField (w : CommandWord) : BitVec 4 := w.extractLsb' 0 4

/-- `ABS = w[4]` (R71, R73). -/
def absField (w : CommandWord) : Bool := w.getLsbD 4

/-- `SEL = w[7:5]` (R71, R74). -/
def selField (w : CommandWord) : BitVec 3 := w.extractLsb' 5 3

/-- `IDX = w[15:8]` (R71, R74). -/
def idxField (w : CommandWord) : Index := w.extractLsb' 8 8

/-- `IMM16 = w[31:16]` (R71, R72). -/
def immField (w : CommandWord) : BitVec 16 := w.extractLsb' 16 16

/-- The `match` and `mask` columns of R76. -/
def rowBits : Row → RowBits
  | .init => ⟨0x00000001#32, 0x0000FFEF#32⟩
  | .next => ⟨0x00000002#32, 0xFFFFFFFF#32⟩
  | .stream => ⟨0x00000003#32, 0x0000FFEF#32⟩
  | .nextb => ⟨0x00000004#32, 0xFFFFFFFF#32⟩
  | .erase => ⟨0x00000005#32, 0xFFFFFFFF#32⟩
  | .peekRes => ⟨0x00000006#32, 0xFFFF00FF#32⟩
  | .peekMem => ⟨0x00000026#32, 0xFFFF00FF#32⟩
  | .peekA => ⟨0x00000046#32, 0xFFFFFFFF#32⟩
  | .peekB => ⟨0x00000066#32, 0xFFFFFFFF#32⟩
  | .peekC => ⟨0x00000086#32, 0xFFFFFFFF#32⟩
  | .peekCur => ⟨0x000000A6#32, 0xFFFFFFFF#32⟩
  | .peekBidx => ⟨0x000000C6#32, 0xFFFFFFFF#32⟩

/-- All rows of R76, in the map's order. -/
def allRows : List Row :=
  [.init, .next, .stream, .nextb, .erase, .peekRes, .peekMem, .peekA, .peekB, .peekC, .peekCur, .peekBidx]

/-- A word selects a row when `(w & mask) = match` (R76). -/
def selectsRow (w : CommandWord) (r : Row) : Bool := (w &&& (rowBits r).mask) == (rowBits r).pattern

/-- The row that `OP`, and for opcode 6 also `SEL`, picks (R75, R76); none for a reserved opcode or selector. -/
def pickRow (op : BitVec 4) (sel : BitVec 3) : Option Row :=
  if op = 1 then some .init
  else if op = 2 then some .next
  else if op = 3 then some .stream
  else if op = 4 then some .nextb
  else if op = 5 then some .erase
  else if op = 6 then
    if sel = 0 then some .peekRes
    else if sel = 1 then some .peekMem
    else if sel = 2 then some .peekA
    else if sel = 3 then some .peekB
    else if sel = 4 then some .peekC
    else if sel = 5 then some .peekCur
    else if sel = 6 then some .peekBidx
    else none
  else none

/-- The command of a row, its operands read from the word (R72 to R74). -/
def rowInstr (w : CommandWord) : Row → Instr
  | .init => .init (absField w) (immField w)
  | .next => .next
  | .stream => .stream (absField w) (immField w)
  | .nextb => .nextb
  | .erase => .erase
  | .peekRes => .peekRes (idxField w)
  | .peekMem => .peekMem (idxField w)
  | .peekA => .peekA
  | .peekB => .peekB
  | .peekC => .peekC
  | .peekCur => .peekCur
  | .peekBidx => .peekBidx

/-- The code that a cause has in `STATUS.ECAUSE` (R212). -/
def Cause.code : Cause → BitVec 3
  | .unassignedOpcode => 1
  | .reservedField => 2
  | .featureAbsent => 3

/-- `Decode(w)` of R75: the checks in the rule's order, the first that fails giving the cause. Byte mode is never present
with `W = 64` (R4), so `byteMode` alone is the rule's "`W = 32` and `BYTE_MODE = present`". After the first three checks
the only word for which no row is picked has `OP = 6` and `SEL = 7`. -/
def decode (cfg : Config) (w : CommandWord) : Except Cause Instr :=
  let op := opField w
  let sel := selField w
  if op = 0 ∨ 7 ≤ op then .error .unassignedOpcode
  else if op = 4 ∧ cfg.byteMode = false then .error .featureAbsent
  else if op = 6 ∧ cfg.peekEn = false then .error .featureAbsent
  else if op = 6 ∧ sel = 6 ∧ cfg.byteMode = false then .error .featureAbsent
  else
    match pickRow op sel with
    | none => .error .reservedField
    | some r => if selectsRow w r then .ok (rowInstr w r) else .error .reservedField

/-- A command word from its five fields, laid out as in R71. -/
def encodeFields (op : BitVec 4) (abs : Bool) (sel : BitVec 3) (idx : Index) (imm : BitVec 16) : CommandWord :=
  imm ++ idx ++ sel ++ BitVec.ofBool abs ++ op

/-- The command word of a command: its opcode and selector (R74, R76), its operands in their fields, every other field
zero (R78). -/
def encode : Instr → CommandWord
  | .init abs len => encodeFields 1 abs 0 0 len
  | .next => encodeFields 2 false 0 0 0
  | .stream abs count => encodeFields 3 abs 0 0 count
  | .nextb => encodeFields 4 false 0 0 0
  | .erase => encodeFields 5 false 0 0 0
  | .peekRes idx => encodeFields 6 false 0 idx 0
  | .peekMem idx => encodeFields 6 false 1 idx 0
  | .peekA => encodeFields 6 false 2 0 0
  | .peekB => encodeFields 6 false 3 0 0
  | .peekC => encodeFields 6 false 4 0 0
  | .peekCur => encodeFields 6 false 5 0 0
  | .peekBidx => encodeFields 6 false 6 0 0

/-- The host's question about the opcode table: a command is one 32-bit word with no other length (R70), so the word's bits
are those of `w` below `nbits`. The configuration is the one that has every command (log entry 1). -/
def decodeTableWord (nbits w : Nat) : Option Instr :=
  if 32 < nbits then none
  else
    match decode Config.full (BitVec.ofNat 32 (w % 2 ^ nbits)) with
    | .ok i => some i
    | .error _ => none

end Sys2Proof
end

