-- ==== Sys2Proof/Machine/State.lean ====
section
/-!
DEFINITION. Everything the spec gives the machine (10_state.md), as plain data: the configuration, the context, the interface
registers, the host memory the core reaches, the spec's ghost bookkeeping, and the host's next actions. `K[0..7]` and the
Shuffle temporaries exist only inside a command (R30, R31, R37) and are no fields.
-/

namespace Sys2Proof.Machine

/-- Why the machine stops. Both are a launch that breaks a host duty on a buffer, to which the spec gives no step (R57). -/
inductive Fault where
  /-- Raised by INIT with `ABS = 0` when the bound seed buffer lacks a readable byte below `min(LEN, N)` (R57 item 1).
  Safe: nothing is done and no claim about such a launch follows (log entry 5). -/
  | seedBufferShort
  /-- Raised by STREAM with `ABS = 0` when the bound output buffer has fewer than `COUNT` writable slots (R57 item 2).
  Safe: nothing is done and no claim about such a launch follows (log entry 5). -/
  | outBufferShort
  deriving DecidableEq, Repr

/-- Why a step has no meaning in the model. -/
inductive Refusal where
  /-- Raised by `exec` for a command without a meaning. No arm raises it. Safe. -/
  | notModelled (mnemonic : String)
  /-- Raised by a host access outside the register block, which the core does not answer (R61, U12). Safe (log entry 12). -/
  | outsideRegisterBlock
  /-- Raised by a host access inside the register block with a width or an offset that R59 and R60 do not give. Safe
  (log entry 12). -/
  | registerAccessShape
  deriving DecidableEq, Repr

/-- Sparse host memory by index: pairs of index and value. What an unlisted index reads as is `none`: the buffer has no
such byte (seed), or the value there is the host's and unknown (output). -/
abbrev Memory (α : Type) := List (Nat × α)

/-- The seed buffer bound by the host: byte cells (R50, R51; log entry 8). -/
abbrev SeedBuffer := List Host.Cell

/-- The output buffer bound by the host: the number of its writable word slots, and its word cells (R50, R52; log entry 7). -/
structure OutBuffer (w : Width) where
  slots : Nat
  cells : Memory (Word w)
  deriving DecidableEq, Repr

/-- The generator context (R20 to R24). Where byte mode is absent `bidx` is the constant 0 that nothing reads (R24). -/
structure Context (w : Width) where
  res : Bank w
  mem : Bank w
  a : Word w
  b : Word w
  c : Word w
  cur : Index
  bidx : BitVec 2
  deriving DecidableEq, Repr

/-- The ghost variable `GRAN` (R33). -/
inductive Gran where
  | none
  | word
  | byte
  deriving DecidableEq, Repr

/-- The ghost mark of one illegal command taken in the run (R217). -/
structure FaultMark where
  cause : Cause
  word : CommandWord
  deriving DecidableEq, Repr

/-- The two widths of a host register access (R59). -/
inductive BusSize where
  | b32
  | b64
  deriving DecidableEq, Repr

/-- The data of a host register access. -/
inductive BusData where
  | d32 (v : BitVec 32)
  | d64 (v : BitVec 64)
  deriving DecidableEq, Repr

/-- What the host can do to the core (R225). -/
inductive HostAction (w : Width) where
  /-- A write of `data` at a bus address; a write to `CMD` submits a command (R25, R59). -/
  | write (addr : Nat) (data : BusData)
  /-- A read at a bus address (R59). -/
  | read (addr : Nat) (size : BusSize)
  /-- Binding a seed buffer that holds these bytes, from index 0 (R50, R57). -/
  | bindSeed (bytes : List Byte)
  /-- Binding an output buffer with this many word slots, the first of which hold these words (R50, R57). -/
  | bindOut (slots : Nat) (contents : List (Word w))
  /-- Reset; the context it leaves is `draw`, a free input (R40, R41, R240). -/
  | reset (draw : Context w)
  deriving DecidableEq, Repr

/-- One core of width `w` and what the host shares with it. -/
structure CoreState (w : Width) where
  /-- The context. -/
  ctx : Context w
  /-- `STATUS.INIT_DONE` (R26, R35). -/
  initDone : Bool
  /-- `STATUS.ILLEGAL` (R26). -/
  illegal : Bool
  /-- `STATUS.ECAUSE` (R26). -/
  ecause : BitVec 3
  /-- `OUT` (R27). -/
  out : Word w
  /-- `ERRCMD` (R28). -/
  errCmd : CommandWord
  /-- The seed buffer bound to the next INIT (R57). -/
  seedBuf : SeedBuffer
  /-- The output buffer bound to the next STREAM (R57). -/
  outBuf : OutBuffer w
  /-- Ghost `GRAN` (R33). -/
  gran : Gran
  /-- Ghost `MIXED` (R34). -/
  mixed : Bool
  /-- Ghost fault mark of the run, newest first (R217). -/
  faults : List FaultMark
  /-- The host's next actions, oldest first (log entry 3). -/
  pending : List (HostAction w)
  /-- The data of the host's most recent register read (log entry 12). -/
  readData : Option BusData
  deriving DecidableEq, Repr

/-- The machine: a configuration, and a core built with it. -/
structure State where
  config : Config
  core : CoreState config.width
  deriving DecidableEq, Repr

/-- What the core loop of a step finds to do (R25, R29): no host action, a command word, an action already carried out, or an
access the model refuses. -/
inductive Fetched (w : Width) where
  | idle
  | command (word : CommandWord) (core : CoreState w)
  | done (core : CoreState w)
  | refused (reason : Refusal)
  deriving DecidableEq, Repr

/-- The all-zero context. -/
def Context.zero (w : Width) : Context w where
  res := Vector.replicate 256 0
  mem := Vector.replicate 256 0
  a := 0
  b := 0
  c := 0
  cur := 0
  bidx := 0

/-- The core after power-on with the drawn context `draw` (R40), no buffer bound and no host action waiting. Without byte
mode there is no `BIDX` to draw (R24). -/
def CoreState.atReset (cfg : Config) (draw : Context cfg.width) : CoreState cfg.width where
  ctx := if cfg.byteMode then draw else { draw with bidx := 0 }
  initDone := false
  illegal := false
  ecause := 0
  out := 0
  errCmd := 0
  seedBuf := []
  outBuf := { slots := 0, cells := [] }
  gran := .none
  mixed := false
  faults := []
  pending := []
  readData := none

/-- The machine right after reset, for a configuration and a draw (R40). -/
def State.resetWith (cfg : Config) (draw : Context cfg.width) : State where
  config := cfg
  core := CoreState.atReset cfg draw

/-- The machine right after reset. DESIGN CHOICE: the configuration is the one with every command (log entry 1), and the
draw, to which the spec gives no value, is the zero context (log entry 2). -/
def State.reset : State := State.resetWith Config.full (Context.zero Config.full.width)

end Sys2Proof.Machine
end

