-- ==== Sys2Proof/Machine/Ops.lean ====
section
/-!
DEFINITION. The named operations over memory and registers that the meanings share: host memory by index, the two context
arrays, the update of a core, taking the illegal-command exception, and reset.
-/

namespace Sys2Proof

/-- Element `i` of `RES` or `MEM` (R20, R21). -/
def Bank.read {w : Width} (v : Bank w) (i : Index) : Word w := v[i.toNat]'i.isLt

/-- Write of element `i` of `RES` or `MEM`. -/
def Bank.write {w : Width} (v : Bank w) (i : Index) (x : Word w) : Bank w := v.set i.toNat x i.isLt

/-- Whether the platform's `OUTBUF_ALIGN` puts every output word slot at a multiple of `W/8` bytes. Where it does not, what happens at a
misaligned slot is up to the platform (R58); `OutWrite` addresses slots by index, so no access of the core asks this. -/
def Config.slotsAligned (cfg : Config) : Bool := cfg.outBufAlign % (cfg.width.bits / 8) == 0

namespace Machine

/-- The canonical form of a host memory: indices strictly rising, so that equal memories are equal lists. -/
abbrev Memory.wf {α : Type} (m : Memory α) : Prop := m.Pairwise fun x y => x.1 < y.1

/-- What index `i` reads as: `none` where it is not listed. -/
def Memory.read {α : Type} : Memory α → Nat → Option α
  | [], _ => none
  | (j, u) :: rest, i => if i = j then some u else Memory.read rest i

/-- A write of one element, which keeps the canonical form. -/
def Memory.write {α : Type} : Memory α → Nat → α → Memory α
  | [], i, v => [(i, v)]
  | (j, u) :: rest, i, v =>
    if i < j then (i, v) :: (j, u) :: rest
    else if i = j then (i, v) :: rest
    else (j, u) :: Memory.write rest i v

/-- The memory that holds a list's elements from index `i` on. -/
def Memory.ofListFrom {α : Type} : Nat → List α → Memory α
  | _, [] => []
  | i, x :: xs => (i, x) :: Memory.ofListFrom (i + 1) xs

/-- The elements at indices `i`, `i + 1`, … (`n` of them, in ascending order); none if one of them is absent. -/
def Memory.readRange {α : Type} (m : Memory α) : Nat → Nat → Option (List α)
  | _, 0 => some []
  | i, n + 1 =>
    match m.read i, m.readRange (i + 1) n with
    | some v, some vs => some (v :: vs)
    | _, _ => none

/-- The output buffer's invariant: canonical cells, all inside the buffer. -/
abbrev OutBuffer.wf {w : Width} (b : OutBuffer w) : Prop := Memory.wf b.cells ∧ ∀ x ∈ b.cells, x.1 < b.slots

/-- The word the host finds in slot `i`; `none` where neither the host's binding nor the core has given one. -/
def OutBuffer.read {w : Width} (b : OutBuffer w) (i : Nat) : Option (Word w) := Memory.read b.cells i

/-- `OutWrite(i, v)` (R52). The meanings issue it only for `i < COUNT ≤ slots`. -/
def OutBuffer.write {w : Width} (b : OutBuffer w) (i : Nat) (v : Word w) : OutBuffer w :=
  { b with cells := Memory.write b.cells i v }

/-- Write of `OUT` (R27). -/
def CoreState.setOut {w : Width} (k : CoreState w) (v : Word w) : CoreState w := { k with out := v }

/-- Replacement of the context. -/
def CoreState.setCtx {w : Width} (k : CoreState w) (x : Context w) : CoreState w := { k with ctx := x }

/-- The machine with its core changed. The configuration is never changed (R2). -/
def State.modify (s : State) (f : CoreState s.config.width → CoreState s.config.width) : State :=
  { s with core := f s.core }

/-- `IllegalCommandTaken(w, cause)` on the core (R213), with the run's fault mark (R217). There is no return from it: no
state is saved and no control is transferred (R215, R216). -/
def CoreState.takeIllegal {w : Width} (k : CoreState w) (word : CommandWord) (cause : Cause) : CoreState w :=
  { k with
    illegal := true
    ecause := cause.code
    errCmd := word
    faults := { cause := cause, word := word } :: k.faults }

/-- Taking the illegal-command exception, the only exception of the core (R211, R213). -/
def State.takeIllegalCommand (s : State) (word : CommandWord) (cause : Cause) : State :=
  s.modify fun k => k.takeIllegal word cause

/-- A command runs if the configuration has it, and otherwise raises `IllegalCommand(3)` (R79). The decoder of R75 already
rejects an absent command; log entry 9 says what `exec` does where it is called past the decoder. -/
def State.runIfPresent (s : State) (i : Instr) (f : CoreState s.config.width → CoreState s.config.width) :
    Host.Outcome State Fault Refusal :=
  if i.wellFormed s.config then .next (s.modify f)
  else .next (s.takeIllegalCommand (encode i) .featureAbsent)

/-- Reset (R40, R240): the state after power-on with the drawn context. What belongs to the host stays: its two buffers, its
next actions, the data it has read; and the fault mark of the run (log entries 10 and 11). -/
def CoreState.applyReset (cfg : Config) (k : CoreState cfg.width) (draw : Context cfg.width) : CoreState cfg.width :=
  { CoreState.atReset cfg draw with
    seedBuf := k.seedBuf
    outBuf := k.outBuf
    faults := k.faults
    pending := k.pending
    readData := k.readData }

end Machine

end Sys2Proof
end

