-- ==== Sys2Proof/Machine/Flags.lean ====
section
/-!
DEFINITION. `STATUS` as the host reads it (R26), the one status bit that legal commands write (R35), and the ghost flags of the
granularity contract (R33, R34). Arithmetic sets no flag (R32).
-/

namespace Sys2Proof.Machine

/-- The 32-bit value of `STATUS` (R26): `INIT_DONE` 0, `ILLEGAL` 1, `ECAUSE` 4:2, `CFG_W64` 5, `CFG_BYTE` 6, `CFG_PEEK` 7, and
zeros above. -/
def statusWord (cfg : Config) (k : CoreState cfg.width) : BitVec 32 :=
  0#24 ++ BitVec.ofBool cfg.peekEn ++ BitVec.ofBool cfg.byteMode ++ BitVec.ofBool (cfg.width == .w64)
    ++ k.ecause ++ BitVec.ofBool k.illegal ++ BitVec.ofBool k.initDone

/-- Write of `STATUS.INIT_DONE` (R35). -/
def CoreState.setInitDone {w : Width} (k : CoreState w) (v : Bool) : CoreState w := { k with initDone := v }

/-- The ghost state after INIT, ERASE or reset (R33, R34). -/
def CoreState.clearGhost {w : Width} (k : CoreState w) : CoreState w := { k with gran := .none, mixed := false }

/-- The ghost effect of a word read: NEXT, or a STREAM that emits a word (R33, R34). -/
def CoreState.markWordRead {w : Width} (k : CoreState w) : CoreState w :=
  { k with
    mixed := k.mixed || k.gran == .byte
    gran := if k.gran = .none then .word else k.gran }

/-- The ghost effect of a byte read: NEXTB (R33, R34). -/
def CoreState.markByteRead {w : Width} (k : CoreState w) : CoreState w :=
  { k with
    mixed := k.mixed || k.gran == .word
    gran := if k.gran = .none then .byte else k.gran }

end Sys2Proof.Machine
end

