-- ==== Sys2Proof/Machine/Erase.lean ====
section
/-!
DEFINITION. ERASE (43_erase_and_peek.md R190, R191).
-/

namespace Sys2Proof.Machine

/-- ERASE's effect (R190): the zero context, `OUT` zero, `INIT_DONE` clear, and the ghost state. `BIDX` is zero where byte mode is
absent, so zeroing it there is no write of an absent register (R24). -/
def CoreState.erase {w : Width} (k : CoreState w) : CoreState w :=
  (((k.setCtx (Context.zero w)).setOut 0).setInitDone false).clearGhost

/-- ERASE (R190). -/
def execErase (s : State) : Host.Outcome State Fault Refusal := .next (s.modify CoreState.erase)

end Sys2Proof.Machine
end

