-- ==== Sys2Proof/Machine/Operands.lean ====
section
/-!
DEFINITION. The operand forms: the effective seed length and the seed bytes (R51, R102), the word and the byte that the cursor
selects (R160, R172), and the zero extension of a narrow element (R192).
-/

namespace Sys2Proof.Machine

/-- The effective seed length `L` (R102): `LEN` clamped to `N`, and 0 for an absent seed whatever `LEN` is (R104). -/
def effectiveLength (abs : Bool) (len : BitVec 16) : Nat := if abs then 0 else min len.toNat 256

/-- `SeedRead(0)` to `SeedRead(L-1)`, in ascending order (R51, R55); none where the buffer lacks one of them (R57). -/
def seedBytes (buf : SeedBuffer) (l : Nat) : Option (List Byte) := Memory.readRange (α := Byte) buf 0 l

/-- `RES[CUR]`, the word that the next word read returns (R160). -/
def Context.currentWord {w : Width} (x : Context w) : Word w := x.res.read x.cur

/-- Byte `i` of a word, bits `8*i+7 : 8*i` (R172). -/
def byteOf {w : Width} (v : Word w) (i : BitVec 2) : Byte := v.extractLsb' (8 * i.toNat) 8

/-- Zero extension to a word (R192). -/
def zextWord (w : Width) {n : Nat} (v : BitVec n) : Word w := v.setWidth w.bits

end Sys2Proof.Machine
end

