-- ==== Sys2Proof/Machine/Permutation.lean ====
section
/-!
DEFINITION. The Permutation Engine (41_permutation.md): the shift expressions, the two indirect indices, the micro-step and the
Shuffle. Every statement reads what the statements before it wrote (R8, R137).
-/

namespace Sys2Proof.Machine

/-- `AMix_W(k, a)`, the shift expression of sub-step `k` (R131, R132). All shifts are logical (C2). -/
def aMix : (w : Width) → Fin 4 → Word w → Word w
  | .w32, 0, a => a ^^^ (a <<< 13)
  | .w32, 1, a => a ^^^ (a >>> 6)
  | .w32, 2, a => a ^^^ (a <<< 2)
  | .w32, 3, a => a ^^^ (a >>> 16)
  | .w64, 0, a => ~~~(a ^^^ (a <<< 21))
  | .w64, 1, a => a ^^^ (a >>> 5)
  | .w64, 2, a => a ^^^ (a <<< 12)
  | .w64, 3, a => a ^^^ (a >>> 33)

/-- `Idx1_W(x)`, the index of the first indirect read (R133). -/
def idx1 : (w : Width) → Word w → Index
  | .w32, x => x.extractLsb' 2 8
  | .w64, x => x.extractLsb' 3 8

/-- `Idx2_W(y)`, the index of the second indirect read (R133). -/
def idx2 : (w : Width) → Word w → Index
  | .w32, y => y.extractLsb' 10 8
  | .w64, y => y.extractLsb' 11 8

/-- The sub-step `k = i mod 4` of micro-step `i` (R134). -/
def subStep (i : Index) : Fin 4 := Fin.ofNat 4 i.toNat

/-- The mirror index `(i + N/2) mod N` (R134). -/
def mirror (i : Index) : Index := i + 128

/-- `MicroStep(i)` (R134). The second indirect read follows the write of `MEM[i]`. -/
def Context.microStep {w : Width} (i : Index) (s : Context w) : Context w :=
  let x := s.mem.read i
  let a := aMix w (subStep i) s.a + s.mem.read (mirror i)
  let y := s.mem.read (idx1 w x) + a + s.b
  let mem := s.mem.write i y
  let b := mem.read (idx2 w y) + x
  { s with mem := mem, res := s.res.write i b, a := a, b := b }

/-- Micro-steps `0` to `n - 1`, in order (R130). -/
def Context.microSteps {w : Width} : Nat → Context w → Context w
  | 0, s => s
  | n + 1, s => (Context.microSteps n s).microStep (BitVec.ofNat 8 n)

/-- The round counter's part of a Shuffle: `c <- c + 1`, then `b <- b + c` with the new `c` (R130, R136). -/
def Context.countRound {w : Width} (s : Context w) : Context w :=
  { s with c := s.c + 1, b := s.b + (s.c + 1) }

/-- `Shuffle()` (R130): the round counter, then the 256 micro-steps. Irreducible, so that no unification runs it. -/
@[irreducible] def Context.shuffle {w : Width} (s : Context w) : Context w := s.countRound.microSteps 256

end Sys2Proof.Machine
end

