-- ==== Sys2Proof/Machine/Scrambler.lean ====
section
/-!
DEFINITION. The Seed Loader and the Key Scrambler (40_seed_and_key.md): the working registers `K[0..7]`, the two mixing networks,
and the two passes. The working registers carry their values through the whole scramble (R118).
-/

namespace Sys2Proof.Machine

/-- The working registers `K[0..7]`, which exist only during an INIT (R30). -/
structure KRegs (w : Width) where
  k0 : Word w
  k1 : Word w
  k2 : Word w
  k3 : Word w
  k4 : Word w
  k5 : Word w
  k6 : Word w
  k7 : Word w
  deriving DecidableEq, Repr

/-- `GOLDEN_W` (R112). -/
def golden : (w : Width) → Word w
  | .w32 => 0x9e3779b9#32
  | .w64 => 0x9e3779b97f4a7c13#64

/-- `Mix32(K)` (R113), a line of the rule a line here. -/
def mix32 (k : KRegs .w32) : KRegs .w32 :=
  let ⟨k0, k1, k2, k3, k4, k5, k6, k7⟩ := k
  let k0 := k0 ^^^ (k1 <<< 11); let k3 := k3 + k0; let k1 := k1 + k2
  let k1 := k1 ^^^ (k2 >>> 2); let k4 := k4 + k1; let k2 := k2 + k3
  let k2 := k2 ^^^ (k3 <<< 8); let k5 := k5 + k2; let k3 := k3 + k4
  let k3 := k3 ^^^ (k4 >>> 16); let k6 := k6 + k3; let k4 := k4 + k5
  let k4 := k4 ^^^ (k5 <<< 10); let k7 := k7 + k4; let k5 := k5 + k6
  let k5 := k5 ^^^ (k6 >>> 4); let k0 := k0 + k5; let k6 := k6 + k7
  let k6 := k6 ^^^ (k7 <<< 8); let k1 := k1 + k6; let k7 := k7 + k0
  let k7 := k7 ^^^ (k0 >>> 9); let k2 := k2 + k7; let k0 := k0 + k1
  ⟨k0, k1, k2, k3, k4, k5, k6, k7⟩

/-- `Mix64(K)` (R114), a line of the rule a line here. -/
def mix64 (k : KRegs .w64) : KRegs .w64 :=
  let ⟨k0, k1, k2, k3, k4, k5, k6, k7⟩ := k
  let k0 := k0 - k4; let k5 := k5 ^^^ (k7 >>> 9); let k7 := k7 + k0
  let k1 := k1 - k5; let k6 := k6 ^^^ (k0 <<< 9); let k0 := k0 + k1
  let k2 := k2 - k6; let k7 := k7 ^^^ (k1 >>> 23); let k1 := k1 + k2
  let k3 := k3 - k7; let k0 := k0 ^^^ (k2 <<< 15); let k2 := k2 + k3
  let k4 := k4 - k0; let k1 := k1 ^^^ (k3 >>> 14); let k3 := k3 + k4
  let k5 := k5 - k1; let k2 := k2 ^^^ (k4 <<< 20); let k4 := k4 + k5
  let k6 := k6 - k2; let k3 := k3 ^^^ (k5 >>> 17); let k5 := k5 + k6
  let k7 := k7 - k3; let k4 := k4 ^^^ (k6 <<< 14); let k6 := k6 + k7
  ⟨k0, k1, k2, k3, k4, k5, k6, k7⟩

/-- `Mix_W` (R120). -/
def mix : (w : Width) → KRegs w → KRegs w
  | .w32 => mix32
  | .w64 => mix64

/-- Index `8 * j + i`, element `i` of block `j` (R116). -/
def blockIndex (j i : Nat) : Index := BitVec.ofNat 8 (8 * j + i)

/-- `K[k] <- K[k] + V[8 * j + k]` for `k` in 0 to 7 (R116, R117). -/
def KRegs.addBlock {w : Width} (k : KRegs w) (v : Bank w) (j : Nat) : KRegs w where
  k0 := k.k0 + v.read (blockIndex j 0)
  k1 := k.k1 + v.read (blockIndex j 1)
  k2 := k.k2 + v.read (blockIndex j 2)
  k3 := k.k3 + v.read (blockIndex j 3)
  k4 := k.k4 + v.read (blockIndex j 4)
  k5 := k.k5 + v.read (blockIndex j 5)
  k6 := k.k6 + v.read (blockIndex j 6)
  k7 := k.k7 + v.read (blockIndex j 7)

/-- `V[8 * j + k] <- K[k]` for `k` in 0 to 7 (R116, R117). -/
def storeBlock {w : Width} (v : Bank w) (j : Nat) (k : KRegs w) : Bank w :=
  let v := v.write (blockIndex j 0) k.k0
  let v := v.write (blockIndex j 1) k.k1
  let v := v.write (blockIndex j 2) k.k2
  let v := v.write (blockIndex j 3) k.k3
  let v := v.write (blockIndex j 4) k.k4
  let v := v.write (blockIndex j 5) k.k5
  let v := v.write (blockIndex j 6) k.k6
  v.write (blockIndex j 7) k.k7

/-- The Key Scrambler between two statements: `K` and `MEM`. -/
structure Scramble (w : Width) where
  k : KRegs w
  mem : Bank w
  deriving DecidableEq, Repr

/-- Block `j` of pass 1: the block's words come from `RES` (R116). -/
def Scramble.block1 {w : Width} (res : Bank w) (j : Nat) (s : Scramble w) : Scramble w :=
  let k := mix w (s.k.addBlock res j)
  { k := k, mem := storeBlock s.mem j k }

/-- Block `j` of pass 2: the block's words come from `MEM`, before they are overwritten (R117). -/
def Scramble.block2 {w : Width} (j : Nat) (s : Scramble w) : Scramble w :=
  let k := mix w (s.k.addBlock s.mem j)
  { k := k, mem := storeBlock s.mem j k }

/-- The first `n` blocks of pass 1, in ascending order (R116). -/
def Scramble.blocks1 {w : Width} (res : Bank w) : Nat → Scramble w → Scramble w
  | 0, s => s
  | n + 1, s => (Scramble.blocks1 res n s).block1 res n

/-- The first `n` blocks of pass 2, in ascending order (R117). -/
def Scramble.blocks2 {w : Width} : Nat → Scramble w → Scramble w
  | 0, s => s
  | n + 1, s => (Scramble.blocks2 n s).block2 n

/-- `K[0..7]` after the four unseeded mixes of `GOLDEN_W` (R115). -/
def goldenMixed (w : Width) : KRegs w :=
  let g := golden w
  mix w (mix w (mix w (mix w ⟨g, g, g, g, g, g, g, g⟩)))

/-- `KeyScramble()` (R115 to R118): the four mixes, the 32 blocks of pass 1, the 32 blocks of pass 2. It writes `MEM` alone.
Irreducible, so that no unification runs it. -/
@[irreducible] def Context.keyScramble {w : Width} (x : Context w) : Context w :=
  let s : Scramble w := { k := goldenMixed w, mem := x.mem }
  let s := s.blocks1 x.res 32
  let s := s.blocks2 32
  { x with mem := s.mem }

/-- `SeedLoad(L)` for the `L` seed bytes read (R103): element `i` is byte `i` zero-extended, and 0 from `L` on. -/
def seedLoad (w : Width) (seed : List Byte) : Bank w :=
  Vector.ofFn fun i =>
    match seed[i.val]? with
    | some byte => byte.setWidth w.bits
    | none => 0

end Sys2Proof.Machine
end

