-- ==== Sys2Proof/Machine/Init.lean ====
section
/-!
DEFINITION. INIT (40_seed_and_key.md R100 to R111).
-/

namespace Sys2Proof.Machine

/-- `a <- 0; b <- 0; c <- 0` (R107). -/
def Context.clearAccumulators {w : Width} (x : Context w) : Context w := { x with a := 0, b := 0, c := 0 }

/-- INIT's statements on the context, in the order of R101, for the seed bytes read. -/
def Context.initialise {w : Width} (byteMode : Bool) (seed : List Byte) (x : Context w) : Context w :=
  let x := { x with res := seedLoad w seed }
  let x := x.clearAccumulators
  let x := x.keyScramble
  let x := x.shuffle
  let x := { x with cur := 255 }
  if byteMode then { x with bidx := 0 } else x

/-- INIT's effect for the seed bytes read (R101, R108): the context, `INIT_DONE` and the ghost state. -/
def CoreState.initialise {w : Width} (byteMode : Bool) (seed : List Byte) (k : CoreState w) : CoreState w :=
  ((k.setCtx (k.ctx.initialise byteMode seed)).setInitDone true).clearGhost

/-- INIT (R100, R101). A bound buffer without the `L` seed bytes is a broken host duty, which has no step (R57). -/
def execInit (abs : Bool) (len : BitVec 16) (s : State) : Host.Outcome State Fault Refusal :=
  match seedBytes s.core.seedBuf (effectiveLength abs len) with
  | some seed => .next (s.modify fun k => k.initialise s.config.byteMode seed)
  | none => .fault .seedBufferShort

end Sys2Proof.Machine
end

