-- ==== Sys2Proof/Machine/Peek.lean ====
section
/-!
DEFINITION. The PEEK family (43_erase_and_peek.md R192 to R199): each copies one element into `OUT`, zero-extended where it is
narrower than a word, and changes nothing else.
-/

namespace Sys2Proof.Machine

/-- PEEK.RES (R193). -/
def execPeekRes (idx : Index) (s : State) : Host.Outcome State Fault Refusal :=
  s.runIfPresent (.peekRes idx) fun k => k.setOut (k.ctx.res.read idx)

/-- PEEK.MEM (R194). -/
def execPeekMem (idx : Index) (s : State) : Host.Outcome State Fault Refusal :=
  s.runIfPresent (.peekMem idx) fun k => k.setOut (k.ctx.mem.read idx)

/-- PEEK.A (R195). -/
def execPeekA (s : State) : Host.Outcome State Fault Refusal := s.runIfPresent .peekA fun k => k.setOut k.ctx.a

/-- PEEK.B (R196). -/
def execPeekB (s : State) : Host.Outcome State Fault Refusal := s.runIfPresent .peekB fun k => k.setOut k.ctx.b

/-- PEEK.C (R197). -/
def execPeekC (s : State) : Host.Outcome State Fault Refusal := s.runIfPresent .peekC fun k => k.setOut k.ctx.c

/-- PEEK.CUR (R198). -/
def execPeekCur (s : State) : Host.Outcome State Fault Refusal :=
  s.runIfPresent .peekCur fun k => k.setOut (zextWord _ k.ctx.cur)

/-- PEEK.BIDX (R199). -/
def execPeekBidx (s : State) : Host.Outcome State Fault Refusal :=
  s.runIfPresent .peekBidx fun k => k.setOut (zextWord _ k.ctx.bidx)

end Sys2Proof.Machine
end

