-- ==== Sys2Proof/Machine/Cursor.lean ====
section
/-!
DEFINITION. The Stream Cursor (42_stream.md): Advance with its eager reshuffle, and the word, bulk and byte reads.
-/

namespace Sys2Proof.Machine

/-- `Advance()` (R161): past the word just consumed, with a Shuffle at once if it was the batch's last. -/
def Context.advance {w : Width} (x : Context w) : Context w :=
  if x.cur = 0 then { x.shuffle with cur := 255 } else { x with cur := x.cur - 1 }

/-- NEXT's effect (R162). -/
def CoreState.nextWord {w : Width} (k : CoreState w) : CoreState w :=
  ((k.setOut k.ctx.currentWord).setCtx k.ctx.advance).markWordRead

/-- One turn of STREAM's loop: `OutWrite(i, RES[CUR])`, then Advance (R164). -/
def CoreState.streamWord {w : Width} (i : Nat) (k : CoreState w) : CoreState w :=
  { k with outBuf := k.outBuf.write i k.ctx.currentWord, ctx := k.ctx.advance }

/-- The first `n` turns of STREAM's loop, in ascending slot order (R56, R164). -/
def CoreState.streamWords {w : Width} : Nat → CoreState w → CoreState w
  | 0, k => k
  | n + 1, k => (CoreState.streamWords n k).streamWord n

/-- STREAM's effect with a buffer present (R164): the loop, and the ghost effect if a word was emitted. -/
def CoreState.stream {w : Width} (count : Nat) (k : CoreState w) : CoreState w :=
  if count = 0 then k else (k.streamWords count).markWordRead

/-- The cursor's move after a byte read (R171): the next byte of the word, and after byte 3 the next word. -/
def Context.advanceByte {w : Width} (x : Context w) : Context w :=
  if x.bidx = 3 then { x with bidx := 0 }.advance else { x with bidx := x.bidx + 1 }

/-- NEXTB's effect (R171). -/
def CoreState.nextByte {w : Width} (k : CoreState w) : CoreState w :=
  ((k.setOut (zextWord w (byteOf k.ctx.currentWord k.ctx.bidx))).setCtx k.ctx.advanceByte).markByteRead

end Sys2Proof.Machine
end

