-- ==== Sys2Proof/Machine/Stream.lean ====
section
/-!
DEFINITION. NEXT, STREAM and NEXTB (42_stream.md).
-/

namespace Sys2Proof.Machine

/-- NEXT (R162). -/
def execNext (s : State) : Host.Outcome State Fault Refusal := .next (s.modify CoreState.nextWord)

/-- STREAM (R164). With an absent buffer it changes nothing (R165). A bound buffer with fewer than `COUNT` slots is a broken host
duty, which has no step (R57). -/
def execStream (abs : Bool) (count : BitVec 16) (s : State) : Host.Outcome State Fault Refusal :=
  if abs then .next s
  else if count.toNat ≤ s.core.outBuf.slots then .next (s.modify fun k => k.stream count.toNat)
  else .fault .outBufferShort

/-- NEXTB (R171), present only with byte mode (R170). -/
def execNextb (s : State) : Host.Outcome State Fault Refusal := s.runIfPresent .nextb CoreState.nextByte

end Sys2Proof.Machine
end

