-- ==== Sys2Proof/Machine/Dispatch.lean ====
section
/-!
DEFINITION. `exec`: one arm per command, each a direct call of its meaning.
-/

namespace Sys2Proof.Machine

def exec (i : Instr) (s : State) : Host.Outcome State Fault Refusal :=
  match i with
  | .init abs len => Sys2Proof.Machine.execInit abs len s
  | .next => Sys2Proof.Machine.execNext s
  | .stream abs count => Sys2Proof.Machine.execStream abs count s
  | .nextb => Sys2Proof.Machine.execNextb s
  | .erase => Sys2Proof.Machine.execErase s
  | .peekRes idx => Sys2Proof.Machine.execPeekRes idx s
  | .peekMem idx => Sys2Proof.Machine.execPeekMem idx s
  | .peekA => Sys2Proof.Machine.execPeekA s
  | .peekB => Sys2Proof.Machine.execPeekB s
  | .peekC => Sys2Proof.Machine.execPeekC s
  | .peekCur => Sys2Proof.Machine.execPeekCur s
  | .peekBidx => Sys2Proof.Machine.execPeekBidx s

end Sys2Proof.Machine
end

