-- ==== Sys2Proof/Machine/HostPort.lean ====
section
/-!
DEFINITION. The host's side of the core (20_memory.md R59 to R61, 60_exceptions.md R225): the register block's map, host reads and
writes of it, the binding of buffers, reset, and the host action that the core takes next.
-/

namespace Sys2Proof.Machine

/-- A place of the register block that a host access reaches (R60). -/
inductive Port where
  | cmd
  | status
  | errCmd
  | reserved
  | out
  /-- One half of a 64-bit `OUT`; `true` for the high half. -/
  | outHalf (high : Bool)
  deriving DecidableEq, Repr

/-- The bytes of the register block: up to the end of `OUT` (R60, R61). -/
def registerBlockSize (cfg : Config) : Nat := 0x10 + cfg.width.bits / 8

/-- The place that an access reaches at a byte offset of the block (R59, R60). A split read of a 64-bit `OUT` takes the halves in the
order `OUT_HALF_ORDER`. -/
def portAtOffset (cfg : Config) (offset : Nat) (size : BusSize) : Option Port :=
  match size with
  | .b32 =>
    if offset = 0x00 then some .cmd
    else if offset = 0x04 then some .status
    else if offset = 0x08 then some .errCmd
    else if offset = 0x0C then some .reserved
    else if offset = 0x10 then
      match cfg.width with
      | .w32 => some .out
      | .w64 => some (.outHalf (cfg.outHalfOrder == .highFirst))
    else if offset = 0x14 then
      match cfg.width with
      | .w32 => none
      | .w64 => some (.outHalf (cfg.outHalfOrder == .lowFirst))
    else none
  | .b64 =>
    if offset = 0x10 then
      match cfg.width with
      | .w32 => none
      | .w64 => some .out
    else none

/-- The place that an access reaches at a bus address, or why the model refuses the access (log entry 12). -/
def portAt (cfg : Config) (addr : Nat) (size : BusSize) : Except Refusal Port :=
  if addr < cfg.regBase then .error .outsideRegisterBlock
  else if registerBlockSize cfg ≤ addr - cfg.regBase then .error .outsideRegisterBlock
  else
    match portAtOffset cfg (addr - cfg.regBase) size with
    | some p => .ok p
    | none => .error .registerAccessShape

/-- The width of an access's data. -/
def busDataSize : BusData → BusSize
  | .d32 _ => .b32
  | .d64 _ => .b64

/-- The width of an access that moves a whole word (R59). -/
def wordSize : Width → BusSize
  | .w32 => .b32
  | .w64 => .b64

/-- A word as the data of one access. -/
def wordData : (w : Width) → Word w → BusData
  | .w32, v => .d32 v
  | .w64, v => .d64 v

/-- What a host read of a place returns (R25 to R28, R60). No read has a side effect (R59). -/
def portValue (cfg : Config) (k : CoreState cfg.width) : Port → BusData
  | .cmd => .d32 0
  | .status => .d32 (statusWord cfg k)
  | .errCmd => .d32 k.errCmd
  | .reserved => .d32 0
  | .out => wordData cfg.width k.out
  | .outHalf false => .d32 (k.out.extractLsb' 0 32)
  | .outHalf true => .d32 (k.out.extractLsb' 32 32)

/-- A host write (R25, R59): to `CMD` it submits the data as a command word; to any other place it is ignored (R26 to R28, R60). -/
def hostWrite (cfg : Config) (addr : Nat) (data : BusData) (k : CoreState cfg.width) : Fetched cfg.width :=
  match portAt cfg addr (busDataSize data), data with
  | .ok .cmd, .d32 word => .command word k
  | .ok _, _ => .done k
  | .error r, _ => .refused r

/-- A host read: the value goes to the host, and nothing of the core changes (R59). -/
def hostRead (cfg : Config) (addr : Nat) (size : BusSize) (k : CoreState cfg.width) : Fetched cfg.width :=
  match portAt cfg addr size with
  | .ok p => .done { k with readData := some (portValue cfg k p) }
  | .error r => .refused r

/-- A seed buffer that holds the bytes given, from index 0 (R50). -/
def seedBufferOf (bytes : List Byte) : SeedBuffer := Memory.ofListFrom (α := Byte) 0 bytes

/-- An output buffer of `slots` word slots, the first of which hold the words given (R50). -/
def outBufferOf {w : Width} (slots : Nat) (contents : List (Word w)) : OutBuffer w :=
  { slots := slots, cells := Memory.ofListFrom 0 (contents.take slots) }

/-- One host action (R225), taken off the list already. -/
def hostAct (cfg : Config) (act : HostAction cfg.width) (k : CoreState cfg.width) : Fetched cfg.width :=
  match act with
  | .write addr data => hostWrite cfg addr data k
  | .read addr size => hostRead cfg addr size k
  | .bindSeed bytes => .done { k with seedBuf := seedBufferOf bytes }
  | .bindOut slots contents => .done { k with outBuf := outBufferOf slots contents }
  | .reset draw => .done (CoreState.applyReset cfg k draw)

/-- The host's next action. With none waiting the core is idle and holds its state (R29, R224, R241). -/
def fetch (cfg : Config) (k : CoreState cfg.width) : Fetched cfg.width :=
  match k.pending with
  | [] => .idle
  | act :: rest => hostAct cfg act { k with pending := rest }

/-- The seed buffer itself if it holds the indices below `l`, and otherwise with zero bytes at those it lacks. -/
def padSeedBuffer (buf : SeedBuffer) (l : Nat) : SeedBuffer :=
  match seedBytes buf l with
  | some _ => buf
  | none =>
    seedBufferOf ((List.range l).map fun i => (Memory.read (α := Byte) buf i).getD 0) ++ buf.filter fun x => l ≤ x.1

/-- The host's preparation of a command word, so that the launch keeps the duties of R57: the buffer that the word uses is made long
enough if it is too short, and nothing else changes (log entry 4). -/
def prepareBuffers (cfg : Config) (word : CommandWord) (k : CoreState cfg.width) : CoreState cfg.width :=
  match decode cfg word with
  | .ok (.init abs len) => { k with seedBuf := padSeedBuffer k.seedBuf (effectiveLength abs len) }
  | .ok (.stream false count) => { k with outBuf := { k.outBuf with slots := max k.outBuf.slots count.toNat } }
  | _ => k

/-- The core with one command word, prepared for, as the host's very next action. -/
def launch (cfg : Config) (word : CommandWord) (k : CoreState cfg.width) : CoreState cfg.width :=
  let k := prepareBuffers cfg word k
  { k with pending := .write cfg.regBase (.d32 word) :: k.pending }

end Sys2Proof.Machine
end

