-- ==== Sys2Proof/Machine/Step.lean ====
section
/-!
DEFINITION. One step: one host action, carried out whole (R25, R66). A command word is decoded and executed as one atomic transition;
a word that decodes to no command takes the illegal-command exception (R75, R213).
-/

namespace Sys2Proof.Machine

/-- The command word `word` submitted to the machine (R25, R75). -/
def submit (word : CommandWord) (s : State) : Host.Outcome State Fault Refusal :=
  match decode s.config word with
  | .ok i => exec i s
  | .error cause => .next (s.takeIllegalCommand word cause)

/-- One step of the machine. With no host action waiting the core is idle and holds its state (R29, R241). -/
def step (s : State) : Host.Outcome State Fault Refusal :=
  match fetch s.config s.core with
  | .idle => .next s
  | .command word k => submit word { s with core := k }
  | .done k => .next { s with core := k }
  | .refused r => .refused r

/-- The machine with the command word `w` (its bits from `nbits` on zero) as the host's very next action: a program comes to run when
the host writes its command words to `CMD` one after another (log entry 3), with the buffers that R57 asks for (log entry 4). -/
def State.withFetchWord (s : State) (nbits w : Nat) : State :=
  s.modify fun k => launch s.config (BitVec.ofNat 32 (w % 2 ^ nbits)) k

end Sys2Proof.Machine
end

