-- ==== Sys2Proof/Machine/Assembler.lean ====
section
/-!
DEFINITION. The spec's assembler (30_encoding.md R81, R82): a source line, the command word it stands for, and the reading of a line's
text. The core never sees a line; this is the host's tool. How tokens are told apart, and that a number out of range after `.seed` or
`.word` is refused, is a DESIGN CHOICE (log entry 13).
-/

namespace Sys2Proof.Machine

/-- A source line, its numbers not yet checked. -/
inductive AsmLine where
  /-- `init LEN`, and `init.abs LEN` with `abs`. -/
  | init (abs : Bool) (len : Nat)
  | next
  /-- `stream COUNT`, and `stream.abs COUNT` with `abs`. -/
  | stream (abs : Bool) (count : Nat)
  | nextb
  | erase
  | peekRes (idx : Nat)
  | peekMem (idx : Nat)
  | peekA
  | peekB
  | peekC
  | peekCur
  | peekBidx
  /-- The pseudo-instruction `init.zero` (R82). -/
  | initZero
  /-- The pseudo-instruction `.word V` (R82). -/
  | word (v : Nat)
  /-- The directive `.seed b0, b1, ...`. -/
  | seed (bytes : List Nat)
  /-- The directive `.outbuf NAME`. -/
  | outbuf (name : List Char)
  /-- An empty line or a comment. -/
  | blank
  deriving DecidableEq, Repr

/-- What a line assembles to. -/
inductive AsmResult where
  /-- A command word, with the warning that R82 asks for. -/
  | command (word : CommandWord) (warn : Bool)
  /-- The bytes of the seed buffer bound to the next `init`. -/
  | seed (bytes : List Byte)
  /-- The output buffer bound to the next `stream`. -/
  | outbuf (name : List Char)
  | nothing
  /-- A number out of its range: the assembler refuses it and does not truncate it (R81). -/
  | refused
  deriving DecidableEq, Repr

/-- A command's word. -/
def asmCommand (i : Instr) : AsmResult := .command (encode i) false

/-- Assembly of one line (R81, R82). -/
def assemble : AsmLine → AsmResult
  | .init abs len => if len < 2 ^ 16 then asmCommand (.init abs (BitVec.ofNat 16 len)) else .refused
  | .next => asmCommand .next
  | .stream abs count => if count < 2 ^ 16 then asmCommand (.stream abs (BitVec.ofNat 16 count)) else .refused
  | .nextb => asmCommand .nextb
  | .erase => asmCommand .erase
  | .peekRes idx => if idx < 2 ^ 8 then asmCommand (.peekRes (BitVec.ofNat 8 idx)) else .refused
  | .peekMem idx => if idx < 2 ^ 8 then asmCommand (.peekMem (BitVec.ofNat 8 idx)) else .refused
  | .peekA => asmCommand .peekA
  | .peekB => asmCommand .peekB
  | .peekC => asmCommand .peekC
  | .peekCur => asmCommand .peekCur
  | .peekBidx => asmCommand .peekBidx
  | .initZero => .command (encode (.init true 0)) true
  | .word v => if v < 2 ^ 32 then .command (BitVec.ofNat 32 v) false else .refused
  | .seed bytes => if bytes.all (· < 2 ^ 8) then .seed (bytes.map (BitVec.ofNat 8)) else .refused
  | .outbuf name => .outbuf name
  | .blank => .nothing

/-- The text before a comment (R81). -/
def stripComment : List Char → List Char
  | [] => []
  | ch :: rest => if ch = ';' then [] else ch :: stripComment rest

/-- A line's tokens: runs of characters between blanks, each comma a token of its own. `cur` is the run read so far. -/
def tokensFrom (cur : List Char) : List Char → List (List Char)
  | [] => if cur = [] then [] else [cur.reverse]
  | ch :: rest =>
    let before := if cur = [] then [] else [cur.reverse]
    if ch = ' ' ∨ ch = '\t' then before ++ tokensFrom [] rest
    else if ch = ',' then before ++ [','] :: tokensFrom [] rest
    else tokensFrom (ch :: cur) rest

/-- The value of a digit, upper or lower case. -/
def digitValue (ch : Char) : Option Nat :=
  let n := ch.toNat
  if 48 ≤ n ∧ n ≤ 57 then some (n - 48)
  else if 97 ≤ n ∧ n ≤ 102 then some (n - 87)
  else if 65 ≤ n ∧ n ≤ 70 then some (n - 55)
  else none

/-- The value of a run of digits in a base, after the value `acc`. -/
def digitsValue (base : Nat) : Nat → List Char → Option Nat
  | acc, [] => some acc
  | acc, ch :: rest =>
    match digitValue ch with
    | some d => if d < base then digitsValue base (base * acc + d) rest else none
    | none => none

/-- A number: decimal, or hexadecimal after `0x` (R81). -/
def numberValue : List Char → Option Nat
  | [] => none
  | ['0', 'x'] => none
  | '0' :: 'x' :: digits => digitsValue 16 0 digits
  | digits => digitsValue 10 0 digits

/-- The numbers of a comma-separated list of tokens. -/
def numberList : List (List Char) → Option (List Nat)
  | [] => none
  | [t] => (numberValue t).map fun n => [n]
  | t :: [','] :: rest =>
    match numberValue t, numberList rest with
    | some n, some ns => some (n :: ns)
    | _, _ => none
  | _ => none

/-- A name in lower case. Mnemonics are case-insensitive (R81); the model reads element names, pseudo-instruction names and directive names in
either case too (DESIGN CHOICE, log entry 13). -/
def lowerCase (t : List Char) : List Char := t.map Char.toLower

/-- The PEEK command of an element name. -/
def parsePeek (element : List Char) : Option AsmLine :=
  if element = ['a'] then some .peekA
  else if element = ['b'] then some .peekB
  else if element = ['c'] then some .peekC
  else if element = ['c', 'u', 'r'] then some .peekCur
  else if element = ['b', 'i', 'd', 'x'] then some .peekBidx
  else none

/-- The command of a mnemonic that stands alone. -/
def parseBare (m : List Char) : Option AsmLine :=
  if m = ['n', 'e', 'x', 't'] then some .next
  else if m = ['n', 'e', 'x', 't', 'b'] then some .nextb
  else if m = ['e', 'r', 'a', 's', 'e'] then some .erase
  else if m = ['i', 'n', 'i', 't', '.', 'z', 'e', 'r', 'o'] then some .initZero
  else none

/-- The command of a mnemonic with one number. -/
def parseNumbered (m : List Char) (n : Nat) : Option AsmLine :=
  if m = ['i', 'n', 'i', 't'] then some (.init false n)
  else if m = ['i', 'n', 'i', 't', '.', 'a', 'b', 's'] then some (.init true n)
  else if m = ['s', 't', 'r', 'e', 'a', 'm'] then some (.stream false n)
  else if m = ['s', 't', 'r', 'e', 'a', 'm', '.', 'a', 'b', 's'] then some (.stream true n)
  else if m = ['.', 'w', 'o', 'r', 'd'] then some (.word n)
  else none

/-- The line that a list of tokens spells; none if it spells no line of R81 or R82. DESIGN CHOICE (log entry 13): the directives `.seed` and
`.outbuf`, like the element names, are read in either case; R81 says so of mnemonics only. -/
def parseTokens : List (List Char) → Option AsmLine
  | [] => some .blank
  | m :: args =>
    let m := lowerCase m
    if m = ['.', 's', 'e', 'e', 'd'] then (numberList args).map .seed
    else if m = ['.', 'o', 'u', 't', 'b', 'u', 'f'] then
      match args with
      | [name] => some (.outbuf name)
      | _ => none
    else if m = ['p', 'e', 'e', 'k'] then
      match args with
      | [element] => parsePeek (lowerCase element)
      | [element, [','], idx] =>
        if lowerCase element = ['r', 'e', 's'] then (numberValue idx).map .peekRes
        else if lowerCase element = ['m', 'e', 'm'] then (numberValue idx).map .peekMem
        else none
      | _ => none
    else
      match args with
      | [] => parseBare m
      | [n] => (numberValue n).bind (parseNumbered m)
      | _ => none

/-- Reading of one line of text (R81). -/
def parseLine (text : List Char) : Option AsmLine := parseTokens (tokensFrom [] (stripComment text))

end Sys2Proof.Machine
end

