-- ==== Sys2Proof/Machine/EndianCodec.lean ====
section
/-!
DEFINITION. The contract of the external Endian Codec at the core's word output (20_memory.md R64, R65). No command uses it and it
has no state; a claim about the bytes that a host derives from output words goes through it.
-/

namespace Sys2Proof.Machine

/-- The bytes of one word, least significant first: byte `j` is `v[8*j+7 : 8*j]` (R64). -/
def wordToLittleEndian {w : Width} (v : Word w) : List Byte :=
  (List.range (w.bits / 8)).map fun j => v.extractLsb' (8 * j) 8

/-- The bytes of one word, most significant first: byte `j` is `v[W-1-8*j : W-8-8*j]` (R65). -/
def wordToBigEndian {w : Width} (v : Word w) : List Byte :=
  (List.range (w.bits / 8)).map fun j => v.extractLsb' (w.bits - 8 - 8 * j) 8

/-- `to_little_endian` (R64), word by word. -/
def toLittleEndian {w : Width} (words : List (Word w)) : List Byte := words.flatMap wordToLittleEndian

/-- `to_big_endian` (R65), word by word. -/
def toBigEndian {w : Width} (words : List (Word w)) : List Byte := words.flatMap wordToBigEndian

end Sys2Proof.Machine
end

