-- ==== Sys2Proof/Safety.lean ====
section
/-!
DEFINITION. The terms in which claims about the machine are stated: the invariant of the machine, the premises that the spec gives a
claim about output, runs of one command, and the few words that the claims share.
-/

namespace Sys2Proof.Machine

/-- The status registers tell of the most recent illegal command since reset, if there was one (R26, R28, R212, R216). -/
def CoreState.statusTrue (cfg : Config) (k : CoreState cfg.width) : Prop :=
  (k.illegal = false ∧ k.ecause = 0 ∧ k.errCmd = 0) ∨
  (k.illegal = true ∧ ∃ f rest, k.faults = f :: rest ∧ k.ecause = f.cause.code ∧ k.errCmd = f.word ∧
    decode cfg f.word = .error f.cause)

/-- What every step keeps of one core. -/
structure CoreState.Inv (cfg : Config) (k : CoreState cfg.width) : Prop where
  /-- The seed buffer has its canonical form. -/
  seedBuf : Memory.wf (α := Byte) k.seedBuf
  /-- The output buffer has its canonical form and holds nothing beyond its slots. -/
  outBuf : k.outBuf.wf
  /-- Where byte mode is absent `BIDX` is the constant 0 (R24). -/
  bidx : cfg.byteMode = false → k.ctx.bidx = 0
  /-- `STATUS.ILLEGAL`, `STATUS.ECAUSE` and `ERRCMD` tell of the most recent illegal command. -/
  status : k.statusTrue cfg
  /-- Mixing is recorded only once a read is recorded (R33, R34). -/
  ghost : k.mixed = true → k.gran ≠ .none
  /-- While the context is initialised, `b` is the batch's last word (R138). -/
  lastWord : k.initDone = true → k.ctx.b = k.ctx.res.read 255

/-- What every step keeps of the machine. -/
def State.Inv (s : State) : Prop := s.core.Inv s.config

/-- The premises of a claim about output: the context is initialised, word and byte reads were not mixed, and the run has no fault
(R217, R225, R242, R254, R256). -/
def State.outputPremises (s : State) : Prop := s.core.initDone = true ∧ s.core.mixed = false ∧ s.core.faults = []

/-- The host's next action is the write of a command word to `CMD`, and `rest` comes after it. -/
def State.commandWaiting (s : State) (word : CommandWord) (rest : List (HostAction s.config.width)) : Prop :=
  s.core.pending = .write s.config.regBase (.d32 word) :: rest

/-- The core holds the values that R40 gives for a reset with the drawn context `draw`. -/
def CoreState.isReset (cfg : Config) (draw : Context cfg.width) (k : CoreState cfg.width) : Prop :=
  k.ctx.res = draw.res ∧ k.ctx.mem = draw.mem ∧ k.ctx.a = draw.a ∧ k.ctx.b = draw.b ∧ k.ctx.c = draw.c ∧
  k.ctx.cur = draw.cur ∧ (cfg.byteMode = true → k.ctx.bidx = draw.bidx) ∧
  k.out = 0 ∧ k.errCmd = 0 ∧ k.initDone = false ∧ k.illegal = false ∧ k.ecause = 0 ∧ k.gran = .none ∧ k.mixed = false ∧
  statusWord cfg k = (if cfg.width = .w64 then 0x20#32 else 0) + (if cfg.byteMode then 0x40#32 else 0) +
    (if cfg.peekEn then 0x80#32 else 0)

/-- The machine with the host's next action taken off the list. -/
def State.withPending (s : State) (rest : List (HostAction s.config.width)) : State :=
  s.modify fun k => { k with pending := rest }

/-- A host read at a byte offset of the register block returns `v` and changes nothing else. -/
def State.readsAs (s : State) (offset : Nat) (size : BusSize) (v : BusData) : Prop :=
  ∀ rest, s.core.pending = .read (s.config.regBase + offset) size :: rest →
    step s = .next { s with core := { s.core with pending := rest, readData := some v } }

/-- One command `n` times, stopping at a fault or a refusal. -/
def execTimes (i : Instr) : Nat → State → Host.Outcome State Fault Refusal
  | 0, s => .next s
  | n + 1, s =>
    match execTimes i n s with
    | .next t => exec i t
    | .fault r => .fault r
    | .refused r => .refused r

/-- `n` Shuffles. -/
def Context.shuffles {w : Width} : Nat → Context w → Context w
  | 0, x => x
  | n + 1, x => (Context.shuffles n x).shuffle

/-- The bound seed buffer holds the bytes that an INIT reads (R57 item 1). -/
def CoreState.holdsSeed {w : Width} (k : CoreState w) (abs : Bool) (len : BitVec 16) : Prop :=
  ∀ i < effectiveLength abs len, (Memory.read (α := Byte) k.seedBuf i).isSome = true

/-- Elements `8 * j` to `8 * j + 7` of an array. -/
def blockOf {w : Width} (v : Bank w) (j : Nat) : KRegs w where
  k0 := v.read (blockIndex j 0)
  k1 := v.read (blockIndex j 1)
  k2 := v.read (blockIndex j 2)
  k3 := v.read (blockIndex j 3)
  k4 := v.read (blockIndex j 4)
  k5 := v.read (blockIndex j 5)
  k6 := v.read (blockIndex j 6)
  k7 := v.read (blockIndex j 7)

/-- Register by register addition. -/
def KRegs.add {w : Width} (k l : KRegs w) : KRegs w where
  k0 := k.k0 + l.k0
  k1 := k.k1 + l.k1
  k2 := k.k2 + l.k2
  k3 := k.k3 + l.k3
  k4 := k.k4 + l.k4
  k5 := k.k5 + l.k5
  k6 := k.k6 + l.k6
  k7 := k.k7 + l.k7

/-- `K[i]`. -/
def KRegs.get {w : Width} (k : KRegs w) (i : Fin 8) : Word w :=
  match i with
  | 0 => k.k0
  | 1 => k.k1
  | 2 => k.k2
  | 3 => k.k3
  | 4 => k.k4
  | 5 => k.k5
  | 6 => k.k6
  | 7 => k.k7

/-- The shift in line `j` of `Mix32` (R113). -/
def mixShift32 (j : Fin 8) (v : BitVec 32) : BitVec 32 :=
  match j with
  | 0 => v <<< 11
  | 1 => v >>> 2
  | 2 => v <<< 8
  | 3 => v >>> 16
  | 4 => v <<< 10
  | 5 => v >>> 4
  | 6 => v <<< 8
  | 7 => v >>> 9

/-- The shift in line `j` of `Mix64` (R114). -/
def mixShift64 (j : Fin 8) (v : BitVec 64) : BitVec 64 :=
  match j with
  | 0 => v >>> 9
  | 1 => v <<< 9
  | 2 => v >>> 23
  | 3 => v <<< 15
  | 4 => v >>> 14
  | 5 => v <<< 20
  | 6 => v >>> 17
  | 7 => v <<< 14

/-- The row of the opcode map that a command belongs to (R76). -/
def instrRow : Instr → Row
  | .init _ _ => .init
  | .next => .next
  | .stream _ _ => .stream
  | .nextb => .nextb
  | .erase => .erase
  | .peekRes _ => .peekRes
  | .peekMem _ => .peekMem
  | .peekA => .peekA
  | .peekB => .peekB
  | .peekC => .peekC
  | .peekCur => .peekCur
  | .peekBidx => .peekBidx

/-- The PEEK command that a selector and an index choose (R74); none for the reserved selector. -/
def peekOf (sel : BitVec 3) (idx : Index) : Option Instr :=
  if sel = 0 then some (.peekRes idx)
  else if sel = 1 then some (.peekMem idx)
  else if sel = 2 then some .peekA
  else if sel = 3 then some .peekB
  else if sel = 4 then some .peekC
  else if sel = 5 then some .peekCur
  else if sel = 6 then some .peekBidx
  else none

/-- What a PEEK command copies into `OUT` (R193 to R199); none for another command. -/
def peekedValue {w : Width} (x : Context w) : Instr → Option (Word w)
  | .peekRes idx => some (x.res.read idx)
  | .peekMem idx => some (x.mem.read idx)
  | .peekA => some x.a
  | .peekB => some x.b
  | .peekC => some x.c
  | .peekCur => some (zextWord w x.cur)
  | .peekBidx => some (zextWord w x.bidx)
  | .init _ _ => none
  | .next => none
  | .stream _ _ => none
  | .nextb => none
  | .erase => none

end Sys2Proof.Machine
end

