-- ==== Sys2Proof/Certificates/Slice0/Obligations.lean ====
section
/-!
DEFINITION. What is claimed of the machine, rule by rule of spec/. Every statement holds for every configuration, since State holds the
configuration; a statement about a reset holds for every draw.
-/

open Sys2Proof Sys2Proof.Machine

/-! ## Configuration and reset -/

/-- R4: byte mode may be present only when `W = 32`, and the build refuses `W = 64` with byte mode; R2's two widths are the only ones. -/
def Obligations.BuildGivesExactlyTheLegalConfigurations : Prop :=
  ∀ (n : Nat) (byteMode peekEn : Bool) (base : Nat) (order : HalfOrder) (align : Nat),
    (Config.build 64 true peekEn base order align = none) ∧
    (n ≠ 32 → n ≠ 64 → Config.build n byteMode peekEn base order align = none) ∧
    ((n = 32 ∨ (n = 64 ∧ byteMode = false)) →
      ∃ cfg, Config.build n byteMode peekEn base order align = some cfg ∧ cfg.width.bits = n ∧ cfg.byteMode = byteMode ∧
        cfg.peekEn = peekEn ∧ cfg.regBase = base ∧ cfg.outHalfOrder = order ∧ cfg.outBufAlign = align) ∧
    (∀ cfg : Config, cfg.byteMode = true → cfg.width = .w32)

/-- R40: the values after a reset, for the state after power-on and for the reset action at any state, whatever the draw. The draw of the constant
`State.reset` is the model's choice (log entry 2); nothing here rests on it. -/
def Obligations.ResetGivesTheDrawAndClearRegisters : Prop :=
  (∀ (cfg : Config) (draw : Context cfg.width), (State.resetWith cfg draw).core.isReset cfg draw) ∧
  (∀ (s : State) (draw : Context s.config.width) (rest : List (HostAction s.config.width)),
    s.core.pending = .reset draw :: rest →
    ∃ k : CoreState s.config.width, step s = .next { s with core := k } ∧ k.isReset s.config draw)

/-- What the reset action leaves: the host's two buffers, its next actions and its read data, and the run's fault mark. This is the model's choice
(log entries 10 and 11): no rule says what becomes of them. -/
def Obligations.ResetLeavesTheHostsPart : Prop :=
  ∀ (s t : State) (draw : Context s.config.width) (rest : List (HostAction s.config.width)),
    s.core.pending = .reset draw :: rest → step s = .next t →
    ∃ k : CoreState s.config.width, t = { s with core := k } ∧ k.seedBuf = s.core.seedBuf ∧ k.outBuf = s.core.outBuf ∧
      k.pending = rest ∧ k.readData = s.core.readData ∧ k.faults = s.core.faults

/-- R2: the configuration is fixed for the life of the core. -/
def Obligations.StepNeverWritesTheConfiguration : Prop :=
  ∀ s t : State, step s = .next t → t.config = s.config

/-! ## Encoding -/

/-- Decode and encode agree: the word of a command that the configuration has decodes to that command, every operand at every value. -/
def Obligations.DecodeOfEncodeIsTheCommand : Prop :=
  ∀ (cfg : Config) (i : Instr), i.wellFormed cfg = true → decode cfg (encode i) = .ok i

/-- The other direction: a word that decodes is the word of the command it decodes to, and the configuration has that command. -/
def Obligations.EncodeOfDecodeIsTheWord : Prop :=
  ∀ (cfg : Config) (v : CommandWord) (i : Instr), decode cfg v = .ok i → encode i = v ∧ i.wellFormed cfg = true

/-- No two rows of the opcode map match the same word, and a word that matches no row is illegal (the spec's inference, R83). -/
def Obligations.RowsAreDisjointAndOthersIllegal : Prop :=
  ∀ v : CommandWord,
    (∀ r₁ r₂ : Row, selectsRow v r₁ = true → selectsRow v r₂ = true → r₁ = r₂) ∧
    ((∀ r : Row, selectsRow v r = false) → ∀ cfg : Config, ∃ cause, decode cfg v = .error cause)

/-- R77: a word with opcode 0x0 or 0x7 to 0xF raises `IllegalCommand(1)`, whatever its other fields hold. -/
def Obligations.ReservedOpcodeRaisesCauseOne : Prop :=
  ∀ (s : State) (v : CommandWord) (rest : List (HostAction s.config.width)),
    s.commandWaiting v rest → (opField v = 0 ∨ 7 ≤ (opField v).toNat) →
    step s = .next ((s.withPending rest).takeIllegalCommand v .unassignedOpcode)

/-- R79: a command that the configuration lacks raises `IllegalCommand(3)`, whatever its other fields hold. -/
def Obligations.AbsentCommandRaisesCauseThree : Prop :=
  ∀ (s : State) (v : CommandWord) (rest : List (HostAction s.config.width)),
    s.commandWaiting v rest →
    ((opField v = 4 ∧ (s.config.width = .w64 ∨ s.config.byteMode = false)) ∨
     (opField v = 6 ∧ s.config.peekEn = false) ∨
     (opField v = 6 ∧ selField v = 6 ∧ s.config.byteMode = false)) →
    step s = .next ((s.withPending rest).takeIllegalCommand v .featureAbsent)

/-- R78: of a command that the configuration has, a word with any bit under its row's mask other than the row's match raises
`IllegalCommand(2)`. -/
def Obligations.ReservedFieldRaisesCauseTwo : Prop :=
  ∀ (s : State) (v : CommandWord) (rest : List (HostAction s.config.width)) (r : Row),
    s.commandWaiting v rest → pickRow (opField v) (selField v) = some r → (rowInstr v r).wellFormed s.config = true →
    v &&& (rowBits r).mask ≠ (rowBits r).pattern →
    step s = .next ((s.withPending rest).takeIllegalCommand v .reservedField)

/-- The causes of a selector 7 (R75), and the examples of R214 with several illegal conditions. -/
def Obligations.CausePriorityOnTheSpecsExamples : Prop :=
  (∀ (cfg : Config) (v : CommandWord), opField v = 6 → selField v = 7 → cfg.peekEn = true →
    decode cfg v = .error .reservedField) ∧
  (∀ cfg : Config, decode cfg 0x00010007#32 = .error .unassignedOpcode) ∧
  (∀ cfg : Config, cfg.byteMode = false → decode cfg 0x00010004#32 = .error .featureAbsent) ∧
  (∀ cfg : Config, decode cfg 0x00010002#32 = .error .reservedField)

/-- Words written out from R71, R74 and R76 decode to the commands they stand for. -/
def Obligations.WrittenOutWordsDecode : Prop :=
  decode Config.full 0b0000000000001000_00000000_000_0_0001#32 = .ok (.init false 8) ∧
  decode Config.full 0b0000000011111111_00000000_000_1_0001#32 = .ok (.init true 255) ∧
  decode Config.full 0b0000000000000000_00000000_000_0_0010#32 = .ok .next ∧
  decode Config.full 0b0000000100101100_00000000_000_0_0011#32 = .ok (.stream false 300) ∧
  decode Config.full 0b0000000000000000_00000000_000_0_0100#32 = .ok .nextb ∧
  decode Config.full 0b0000000000000000_00000000_000_0_0101#32 = .ok .erase ∧
  decode Config.full 0b0000000000000000_11111111_000_0_0110#32 = .ok (.peekRes 255) ∧
  decode Config.full 0b0000000000000000_00000011_001_0_0110#32 = .ok (.peekMem 3) ∧
  decode Config.full 0b0000000000000000_00000000_110_0_0110#32 = .ok .peekBidx

/-! ## Taking the exception, and the status registers -/

/-- R213: an illegal command word sets `ILLEGAL`, writes `ECAUSE` and `ERRCMD`, and changes nothing else of the core. The fault mark is the
ghost of R217. -/
def Obligations.IllegalWordTakesTheException : Prop :=
  ∀ (s : State) (v : CommandWord) (rest : List (HostAction s.config.width)) (cause : Cause),
    s.commandWaiting v rest → decode s.config v = .error cause →
    step s = .next { s with core := { s.core with
      pending := rest, illegal := true, ecause := cause.code, errCmd := v, faults := ⟨cause, v⟩ :: s.core.faults } }

/-- R216: `ILLEGAL` is sticky; an illegal command overwrites `ECAUSE` and `ERRCMD`; a reset clears all three, and nothing else the host can
do writes any of them. -/
def Obligations.StatusTellsTheMostRecentIllegalCommand : Prop :=
  ∀ s t : State, step s = .next t →
    (∀ v rest cause, s.commandWaiting v rest → decode s.config v = .error cause →
      t.core.illegal = true ∧ t.core.ecause = cause.code ∧ t.core.errCmd = v) ∧
    (∀ draw rest, s.core.pending = .reset draw :: rest →
      t.core.illegal = false ∧ t.core.ecause = 0 ∧ t.core.errCmd = 0) ∧
    ((∀ v rest cause, s.commandWaiting v rest → decode s.config v ≠ .error cause) →
      (∀ draw rest, s.core.pending ≠ .reset draw :: rest) →
      t.core.illegal = s.core.illegal ∧ t.core.ecause = s.core.ecause ∧ t.core.errCmd = s.core.errCmd)

/-- R217: the fault mark is kept for the whole run: no step removes a mark, a reset included (log entry 10), and each illegal command word
adds one. -/
def Obligations.FaultMarkIsKeptForTheRun : Prop :=
  ∀ s t : State, step s = .next t →
    (∃ marks, t.core.faults = marks ++ s.core.faults) ∧
    (∀ v rest cause, s.commandWaiting v rest → decode s.config v = .error cause →
      t.core.faults = ⟨cause, v⟩ :: s.core.faults)

/-- R35: `INIT_DONE` becomes 1 when INIT completes and 0 at reset and when ERASE completes; no other command changes it. -/
def Obligations.OnlyInitAndEraseWriteInitDone : Prop :=
  (∀ (i : Instr) (s t : State), exec i s = .next t →
    ((∃ abs len, i = .init abs len) → t.core.initDone = true) ∧
    (i = .erase → t.core.initDone = false) ∧
    ((∀ abs len, i ≠ .init abs len) → i ≠ .erase → t.core.initDone = s.core.initDone)) ∧
  (∀ (s : State) (v : CommandWord) (cause : Cause), (s.takeIllegalCommand v cause).core.initDone = s.core.initDone) ∧
  (∀ (cfg : Config) (draw : Context cfg.width), (State.resetWith cfg draw).core.initDone = false)

/-- What each command leaves in `OUT` (R27, for the commands; a command that the configuration lacks is an illegal command). -/
def Obligations.OnlyReadsPeeksAndEraseWriteOut : Prop :=
  ∀ (i : Instr) (s t : State), exec i s = .next t →
    ∃ k : CoreState s.config.width, t = { s with core := k } ∧
      (i.wellFormed s.config = false → k.out = s.core.out) ∧
      (i = .next → k.out = s.core.ctx.res.read s.core.ctx.cur) ∧
      (i = .nextb → i.wellFormed s.config = true →
        k.out = ((s.core.ctx.res.read s.core.ctx.cur).extractLsb' (8 * s.core.ctx.bidx.toNat) 8).setWidth _) ∧
      (∀ v, peekedValue s.core.ctx i = some v → i.wellFormed s.config = true → k.out = v) ∧
      (i = .erase → k.out = 0) ∧
      ((∃ abs len, i = .init abs len) ∨ (∃ abs count, i = .stream abs count) → k.out = s.core.out)

/-! ## INIT -/

/-- R100, R101, R102, R108: a word with opcode 1 is INIT if its `SEL` and `IDX` are 0, and illegal with cause 2 otherwise. INIT completes on
every state whose bound seed buffer holds the `L` bytes it reads. It loads the seed bytes into `RES`, clears `a`, `b` and `c`, runs the
KeyScramble and then one Shuffle, and leaves `CUR = 255`, `BIDX = 0` if present, `INIT_DONE = 1` and the ghost state clear; `OUT`, `ERRCMD`,
`ILLEGAL`, `ECAUSE`, both buffers and everything else keep their values. -/
def Obligations.InitRunsItsStatementsInOrder : Prop :=
  (∀ (cfg : Config) (v : CommandWord), opField v = 1 → decode cfg v =
    if selField v = 0 ∧ idxField v = 0 then .ok (.init (absField v) (immField v)) else .error .reservedField) ∧
  ∀ (abs : Bool) (len : BitVec 16) (s : State), s.core.holdsSeed abs len →
    effectiveLength abs len = (if abs then 0 else min len.toNat 256) ∧
    ∃ seed : List Byte, seedBytes s.core.seedBuf (effectiveLength abs len) = some seed ∧
      exec (.init abs len) s = .next { s with core := { s.core with
        ctx := { ({ s.core.ctx with res := seedLoad _ seed, a := 0, b := 0, c := 0 } : Context _).keyScramble.shuffle with
          cur := 255, bidx := if s.config.byteMode then 0 else s.core.ctx.bidx }
        initDone := true
        gran := .none
        mixed := false } }

/-- Straight after an INIT `c` is 1, `b` is the batch's last word and `CUR` is 255 (the spec's inferences in R136 and R138, and R108). -/
def Obligations.InitLeavesTheFirstBatch : Prop :=
  ∀ (abs : Bool) (len : BitVec 16) (s t : State), exec (.init abs len) s = .next t →
    ∃ k : CoreState s.config.width, t = { s with core := k } ∧ k.ctx.c = 1 ∧ k.ctx.b = k.ctx.res.read 255 ∧ k.ctx.cur = 255

/-- The context after INIT depends on the `L` seed bytes alone (the spec's inference, R111 and R243): two cores of one configuration, in any two
states that meet the invariant, with any two operand pairs of the same effective length and the same seed bytes, end with the same context. -/
def Obligations.InitContextDependsOnTheSeedAlone : Prop :=
  ∀ (cfg : Config) (k₁ k₂ : CoreState cfg.width) (abs₁ abs₂ : Bool) (len₁ len₂ : BitVec 16),
    k₁.Inv cfg → k₂.Inv cfg → effectiveLength abs₁ len₁ = effectiveLength abs₂ len₂ → k₁.holdsSeed abs₁ len₁ →
    (∀ i < effectiveLength abs₁ len₁,
      Memory.read (α := Byte) k₁.seedBuf i = Memory.read (α := Byte) k₂.seedBuf i) →
    ∃ t₁ t₂ : CoreState cfg.width,
      exec (.init abs₁ len₁) ⟨cfg, k₁⟩ = .next ⟨cfg, t₁⟩ ∧ exec (.init abs₂ len₂) ⟨cfg, k₂⟩ = .next ⟨cfg, t₂⟩ ∧
      t₁.ctx = t₂.ctx

/-- R104: an INIT with an absent seed reads no seed byte (it completes whatever buffer is bound), its length has no effect, and `RES` is all
zero after its SeedLoad; it is the INIT with length 0. -/
def Obligations.AbsentSeedIsTheZeroLengthSeed : Prop :=
  ∀ (len : BitVec 16) (s : State),
    exec (.init true len) s = .next (s.modify fun k => k.initialise s.config.byteMode []) ∧
    exec (.init true len) s = exec (.init true 0) s ∧
    exec (.init true len) s = exec (.init false 0) s ∧
    ∀ i : Index, (seedLoad s.config.width []).read i = 0

/-- An oversized seed is truncated to 256 bytes, and a short one is padded with zero bytes (the spec's inferences, R105 and R106). -/
def Obligations.SeedIsTruncatedAndPadded : Prop :=
  (∀ (len : BitVec 16) (s : State), 256 ≤ len.toNat → exec (.init false len) s = exec (.init false 256) s) ∧
  (∀ (w : Width) (byteMode : Bool) (seed : List Byte) (n : Nat) (x : Context w), seed.length + n ≤ 256 →
    x.initialise byteMode (seed ++ List.replicate n 0) = x.initialise byteMode seed)

/-- R103: SeedLoad puts seed byte `i`, as it stands in the bound buffer, zero-extended into element `i` for `i < L`, and 0 into the rest. -/
def Obligations.SeedLoadTakesBytesValueWise : Prop :=
  ∀ (w : Width) (buf : SeedBuffer) (l : Nat) (seed : List Byte), seedBytes buf l = some seed →
    ∀ i : Index,
      (i.toNat < l → ∃ byte : Byte, Memory.read (α := Byte) buf i.toNat = some byte ∧
        (seedLoad w seed).read i = byte.setWidth w.bits) ∧
      (l ≤ i.toNat → (seedLoad w seed).read i = 0)

/-- A launch that breaks a buffer duty of R57 has no step: INIT without a byte it reads, STREAM without a slot it writes. The names of the two
faults are the model's (log entry 5). -/
def Obligations.BrokenBufferDutyStops : Prop :=
  (∀ (abs : Bool) (len : BitVec 16) (s : State) (i : Nat), i < effectiveLength abs len →
    Memory.read (α := Byte) s.core.seedBuf i = none → exec (.init abs len) s = .fault .seedBufferShort) ∧
  (∀ (count : BitVec 16) (s : State), s.core.outBuf.slots < count.toNat →
    exec (.stream false count) s = .fault .outBufferShort)

/-- R112, R115 to R118: the working registers run through `K 0`, the four unseeded mixes of the golden constant, then 32 blocks that add
`RES`, then 32 blocks that add what pass 1 stored, never reset in between; pass 1 stores block `j` as `K (j + 1)`, and `MEM` ends with block
`j` as `K (33 + j)`. The scramble writes `MEM` alone. -/
def Obligations.KeyScrambleCarriesRegistersThroughBothPasses : Prop :=
  golden .w32 = 0x9e3779b9#32 ∧ golden .w64 = 0x9e3779b97f4a7c13#64 ∧
  ∀ (w : Width) (x : Context w), ∃ (K : Nat → KRegs w) (pass1 : Bank w),
    K 0 = mix w (mix w (mix w (mix w
      ⟨golden w, golden w, golden w, golden w, golden w, golden w, golden w, golden w⟩))) ∧
    (∀ j < 32, K (j + 1) = mix w ((K j).add (blockOf x.res j))) ∧
    (∀ j < 32, blockOf pass1 j = K (j + 1)) ∧
    (∀ j < 32, K (33 + j) = mix w ((K (32 + j)).add (blockOf pass1 j))) ∧
    (∀ j < 32, blockOf x.keyScramble.mem j = K (33 + j)) ∧
    x.keyScramble = { x with mem := x.keyScramble.mem }

/-- R113, R114: the eight lines of each network, each on the registers that follow one another, line `j` reading what line `j - 1` left. -/
def Obligations.MixNetworksFollowTheirLines : Prop :=
  (∀ k : KRegs .w32, ∃ R : Nat → Fin 8 → BitVec 32, R 0 = k.get ∧ R 8 = (mix .w32 k).get ∧
    ∀ j : Fin 8,
      R (j.val + 1) j = R j.val j ^^^ mixShift32 j (R j.val (j + 1)) ∧
      R (j.val + 1) (j + 3) = R j.val (j + 3) + R (j.val + 1) j ∧
      R (j.val + 1) (j + 1) = R j.val (j + 1) + R j.val (j + 2) ∧
      ∀ m : Fin 8, m ≠ j → m ≠ j + 1 → m ≠ j + 3 → R (j.val + 1) m = R j.val m) ∧
  (∀ k : KRegs .w64, ∃ R : Nat → Fin 8 → BitVec 64, R 0 = k.get ∧ R 8 = (mix .w64 k).get ∧
    ∀ j : Fin 8,
      R (j.val + 1) j = R j.val j - R j.val (j + 4) ∧
      R (j.val + 1) (j + 5) = R j.val (j + 5) ^^^ mixShift64 j (R j.val (j + 7)) ∧
      R (j.val + 1) (j + 7) = R j.val (j + 7) + R (j.val + 1) j ∧
      ∀ m : Fin 8, m ≠ j → m ≠ j + 5 → m ≠ j + 7 → R (j.val + 1) m = R j.val m)

/-- Each mixing network is a bijection on eight words and fixes the zero input (the spec's inference, R120). -/
def Obligations.MixNetworksAreBijections : Prop :=
  ∀ w : Width, Function.Bijective (mix w) ∧ mix w ⟨0, 0, 0, 0, 0, 0, 0, 0⟩ = ⟨0, 0, 0, 0, 0, 0, 0, 0⟩

/-! ## The Permutation Engine -/

/-- R130: a Shuffle counts the round, adds the new `c` into `b`, and runs the 256 micro-steps in ascending order. Micro-step `i` alone
writes `RES[i]`. It reads no element of `RES`, and it neither reads nor writes `CUR` and `BIDX`. -/
def Obligations.ShuffleRunsTheCounterThenTheMicroSteps : Prop :=
  ∀ (w : Width) (x : Context w), ∃ C : Nat → Context w,
    C 0 = { x with c := x.c + 1, b := x.b + (x.c + 1) } ∧
    (∀ i < 256, C (i + 1) = (C i).microStep (BitVec.ofNat 8 i)) ∧
    x.shuffle = C 256 ∧
    (∀ i < 256, x.shuffle.res.read (BitVec.ofNat 8 i) = (C (i + 1)).b) ∧
    ∀ (res : Bank w) (cur : Index) (bidx : BitVec 2),
      ({ x with res := res, cur := cur, bidx := bidx } : Context w).shuffle = { x.shuffle with cur := cur, bidx := bidx }

/-- R131, R132, R133: the shift expressions of the four sub-steps and the two index fields, for both widths. -/
def Obligations.ShiftExpressionsAndIndexFields : Prop :=
  (∀ a : BitVec 32,
    aMix .w32 0 a = a ^^^ (a <<< 13) ∧ aMix .w32 1 a = a ^^^ (a >>> 6) ∧
    aMix .w32 2 a = a ^^^ (a <<< 2) ∧ aMix .w32 3 a = a ^^^ (a >>> 16)) ∧
  (∀ a : BitVec 64,
    aMix .w64 0 a = ~~~(a ^^^ (a <<< 21)) ∧ aMix .w64 1 a = a ^^^ (a >>> 5) ∧
    aMix .w64 2 a = a ^^^ (a <<< 12) ∧ aMix .w64 3 a = a ^^^ (a >>> 33)) ∧
  (∀ x : BitVec 32, (idx1 .w32 x).toNat = x.toNat / 2 ^ 2 % 256 ∧ (idx2 .w32 x).toNat = x.toNat / 2 ^ 10 % 256) ∧
  (∀ x : BitVec 64, (idx1 .w64 x).toNat = x.toNat / 2 ^ 3 % 256 ∧ (idx2 .w64 x).toNat = x.toNat / 2 ^ 11 % 256)

/-- R134: what micro-step `i` leaves: `a`, `MEM[i]`, `b` and `RES[i]` by the rule's formulas, the second indirect read seeing the `y` just written
(R137), and every other element, `c`, `CUR` and `BIDX` unchanged. -/
def Obligations.MicroStepFollowsItsFormulas : Prop :=
  ∀ (w : Width) (i : Index) (s : Context w),
    let x := s.mem.read i
    let a := aMix w (Fin.ofNat 4 (i.toNat % 4)) s.a + s.mem.read (i ^^^ 0x80)
    let y := s.mem.read (idx1 w x) + a + s.b
    let b := (if idx2 w y = i then y else s.mem.read (idx2 w y)) + x
    let t := s.microStep i
    t.a = a ∧ t.b = b ∧ t.c = s.c ∧ t.cur = s.cur ∧ t.bidx = s.bidx ∧
    t.mem.read i = y ∧ t.res.read i = b ∧
    ∀ j : Index, j ≠ i → t.mem.read j = s.mem.read j ∧ t.res.read j = s.res.read j

/-- The round counter goes up by one a Shuffle, modulo `2^W`, and `b` ends as the last word (the spec's inferences in R136 and R138); `CUR` and `BIDX`
are not written. -/
def Obligations.ShuffleCountsRoundsAndEndsWithTheLastWord : Prop :=
  ∀ (w : Width) (x : Context w),
    x.shuffle.b = x.shuffle.res.read 255 ∧ x.shuffle.cur = x.cur ∧ x.shuffle.bidx = x.bidx ∧
    ∀ n : Nat, (x.shuffles n).c = x.c + BitVec.ofNat w.bits n

/-- Each element in a Shuffle (R130, R135, R137): before its own micro-step `i` element `MEM[i]` is the old one, and after it `MEM[i]` and `RES[i]`
keep what it wrote; the mirror read of pass 1 sees an old element, that of pass 2 an element that pass 1 wrote. -/
def Obligations.ShuffleWritesEachElementOnceInOrder : Prop :=
  ∀ (w : Width) (x : Context w) (i : Nat), i < 256 →
    (x.countRound.microSteps i).mem.read (BitVec.ofNat 8 i) = x.mem.read (BitVec.ofNat 8 i) ∧
    x.shuffle.mem.read (BitVec.ofNat 8 i) = (x.countRound.microSteps (i + 1)).mem.read (BitVec.ofNat 8 i) ∧
    x.shuffle.res.read (BitVec.ofNat 8 i) = (x.countRound.microSteps (i + 1)).b ∧
    (i < 128 → (x.countRound.microSteps i).mem.read (mirror (BitVec.ofNat 8 i)) =
      x.mem.read (BitVec.ofNat 8 (i + 128))) ∧
    (128 ≤ i → (x.countRound.microSteps i).mem.read (mirror (BitVec.ofNat 8 i)) =
      x.shuffle.mem.read (BitVec.ofNat 8 (i - 128)))

/-- The corner cases of the Shuffle (R141 items 1 to 3): the counter's wrap leaves `b`, and the first words of the Shuffle of the zero context. -/
def Obligations.ShuffleCornerCases : Prop :=
  (∀ (w : Width) (x : Context w), x.c = -1 → x.countRound.c = 0 ∧ x.countRound.b = x.b) ∧
  (Context.zero .w32).shuffle.mem.read 0 = 1 ∧ (Context.zero .w32).shuffle.res.read 0 = 1 ∧
  (Context.zero .w64).shuffle.mem.read 0 = 0 ∧ (Context.zero .w64).shuffle.res.read 0 = 0

/-! ## The Stream Cursor -/

/-- R162: the word `0x00000002` is NEXT, and any other word with opcode 2 is illegal with cause 2. NEXT completes on every state; it puts
`RES[CUR]` into `OUT`, moves the cursor down, and after `RES[0]` runs a Shuffle at once. -/
def Obligations.NextReturnsTheWordAndAdvances : Prop :=
  (∀ (cfg : Config) (v : CommandWord), opField v = 2 → decode cfg v =
    if v = 0x00000002#32 then .ok .next else .error .reservedField) ∧
  ∀ s : State,
    (s.core.ctx.cur ≠ 0 → exec .next s = .next { s with core := { s.core with
      out := s.core.ctx.res.read s.core.ctx.cur
      ctx := { s.core.ctx with cur := s.core.ctx.cur - 1 }
      mixed := s.core.mixed || decide (s.core.gran = .byte)
      gran := if s.core.gran = .none then .word else s.core.gran } }) ∧
    (s.core.ctx.cur = 0 → exec .next s = .next { s with core := { s.core with
      out := s.core.ctx.res.read 0
      ctx := { s.core.ctx.shuffle with cur := 255 }
      mixed := s.core.mixed || decide (s.core.gran = .byte)
      gran := if s.core.gran = .none then .word else s.core.gran } })

/-- R164: a word with opcode 3 is STREAM if its `SEL` and `IDX` are 0, and illegal with cause 2 otherwise. STREAM completes on every state
whose bound buffer has `COUNT` slots; slot `i` gets the word that the cursor selects after `i` moves, every other slot reads as before, the
cursor moves `COUNT` times, and nothing else changes but the ghost state; with `ABS = 1` nothing changes. -/
def Obligations.StreamWritesCountWords : Prop :=
  (∀ (cfg : Config) (v : CommandWord), opField v = 3 → decode cfg v =
    if selField v = 0 ∧ idxField v = 0 then .ok (.stream (absField v) (immField v)) else .error .reservedField) ∧
  ∀ (count : BitVec 16) (s : State),
    exec (.stream true count) s = .next s ∧
    (count.toNat ≤ s.core.outBuf.slots →
      ∃ b : OutBuffer s.config.width,
        exec (.stream false count) s = .next { s with core := { s.core with
          ctx := Context.advance^[count.toNat] s.core.ctx
          outBuf := b
          mixed := s.core.mixed || (decide (s.core.gran = .byte) && decide (1 ≤ count.toNat))
          gran := if s.core.gran = .none ∧ 1 ≤ count.toNat then .word else s.core.gran } } ∧
        b.slots = s.core.outBuf.slots ∧
        ∀ i : Nat,
          (i < count.toNat → b.read i = some (Context.advance^[i] s.core.ctx).currentWord) ∧
          (count.toNat ≤ i → b.read i = s.core.outBuf.read i))

/-- R165: a STREAM with an absent buffer, whatever its count, and a STREAM of no words change no state. -/
def Obligations.EmptyStreamChangesNothing : Prop :=
  (∀ (count : BitVec 16) (s : State), exec (.stream true count) s = .next s) ∧
  (∀ (abs : Bool) (s : State), exec (.stream abs 0) s = .next s)

/-- A STREAM of `n` words and `n` NEXTs (the spec's inference, R166 item 1): the same context and ghost state, slot `i` holds what the NEXT
number `i + 1` puts into `OUT`, the other slots read as before, and STREAM leaves `OUT`. -/
def Obligations.StreamEqualsThatManyNexts : Prop :=
  ∀ (count : BitVec 16) (s : State), count.toNat ≤ s.core.outBuf.slots →
    ∃ (t : CoreState s.config.width) (u : Nat → CoreState s.config.width),
      exec (.stream false count) s = .next { s with core := t } ∧
      (∀ n, execTimes .next n s = .next { s with core := u n }) ∧
      t.ctx = (u count.toNat).ctx ∧ t.gran = (u count.toNat).gran ∧ t.mixed = (u count.toNat).mixed ∧
      (∀ i < count.toNat, t.outBuf.read i = some (u (i + 1)).out) ∧
      (∀ i, count.toNat ≤ i → t.outBuf.read i = s.core.outBuf.read i) ∧
      t.out = s.core.out

/-- A STREAM of `p` words and then one of `q` words (the spec's inference, R166 item 2): the context of a STREAM of `p + q` words, and the
same words. The second STREAM runs at the state the first left, with no new binding, so this rests on the model's choice that a binding lasts
until the next one of its kind (log entry 6). -/
def Obligations.StreamsComposeByAddition : Prop :=
  ∀ (p q : BitVec 16) (s : State), p.toNat + q.toNat ≤ 65535 → p.toNat + q.toNat ≤ s.core.outBuf.slots →
    ∃ t u v : CoreState s.config.width,
      exec (.stream false p) s = .next { s with core := t } ∧
      exec (.stream false q) { s with core := t } = .next { s with core := u } ∧
      exec (.stream false (p + q)) s = .next { s with core := v } ∧
      u.ctx = v.ctx ∧
      (∀ i < p.toNat, t.outBuf.read i = v.outBuf.read i) ∧
      (∀ i < q.toNat, u.outBuf.read i = v.outBuf.read (p.toNat + i))

/-- The reshuffle schedule (the spec's inference, R167) from a full batch, `CUR = 255`: word `j + 1` is element `255 - j mod 256` of batch
`j / 256`, and exactly one Shuffle runs per 256 words. -/
def Obligations.ReshuffleSchedule : Prop :=
  ∀ s : State, s.core.ctx.cur = 255 →
    ∃ u : Nat → CoreState s.config.width,
      (∀ j, execTimes .next j s = .next { s with core := u j }) ∧
      (∀ j, (u (j + 1)).out = (s.core.ctx.shuffles (j / 256)).res.read (BitVec.ofNat 8 (255 - j % 256))) ∧
      (∀ j, (u j).ctx.c = s.core.ctx.c + BitVec.ofNat _ (j / 256)) ∧
      (∀ j, (u j).ctx.cur = BitVec.ofNat 8 (255 - j % 256))

/-- The Shuffles that a STREAM runs, counted as in R257, and where it leaves the cursor. -/
def Obligations.StreamRunsOneShufflePerBatchBoundary : Prop :=
  ∀ (count : BitVec 16) (s : State), count.toNat ≤ s.core.outBuf.slots →
    ∃ t : CoreState s.config.width,
      exec (.stream false count) s = .next { s with core := t } ∧
      t.ctx.c = s.core.ctx.c + BitVec.ofNat _ ((count.toNat + 255 - s.core.ctx.cur.toNat) / 256) ∧
      t.ctx.cur.toNat = (s.core.ctx.cur.toNat + 256 - count.toNat % 256) % 256

/-- R170, R171, R172: the word `0x00000004` is NEXTB where byte mode is present; any other word with opcode 4 is illegal with cause 2, and
without byte mode every one of them with cause 3. NEXTB completes on every state with byte mode; it puts byte `BIDX` of `RES[CUR]` into
`OUT`, least significant byte first, moves to the next byte, and after byte 3 to the next word. -/
def Obligations.NextbReturnsTheByteAndAdvances : Prop :=
  (∀ (cfg : Config) (v : CommandWord), opField v = 4 → decode cfg v =
    if cfg.byteMode = false then .error .featureAbsent
    else if v = 0x00000004#32 then .ok .nextb else .error .reservedField) ∧
  ∀ s : State, s.config.byteMode = true →
    ∃ (byte : Byte) (x : Context s.config.width),
      exec .nextb s = .next { s with core := { s.core with
        out := byte.setWidth _
        ctx := x
        mixed := s.core.mixed || decide (s.core.gran = .word)
        gran := if s.core.gran = .none then .byte else s.core.gran } } ∧
      (s.core.ctx.bidx = 0 → byte = (s.core.ctx.res.read s.core.ctx.cur).extractLsb' 0 8) ∧
      (s.core.ctx.bidx = 1 → byte = (s.core.ctx.res.read s.core.ctx.cur).extractLsb' 8 8) ∧
      (s.core.ctx.bidx = 2 → byte = (s.core.ctx.res.read s.core.ctx.cur).extractLsb' 16 8) ∧
      (s.core.ctx.bidx = 3 → byte = (s.core.ctx.res.read s.core.ctx.cur).extractLsb' 24 8) ∧
      (s.core.ctx.bidx ≠ 3 → x = { s.core.ctx with bidx := s.core.ctx.bidx + 1 }) ∧
      (s.core.ctx.bidx = 3 → s.core.ctx.cur ≠ 0 → x = { s.core.ctx with bidx := 0, cur := s.core.ctx.cur - 1 }) ∧
      (s.core.ctx.bidx = 3 → s.core.ctx.cur = 0 → x = { s.core.ctx.shuffle with bidx := 0, cur := 255 })

/-- Four NEXTBs a word (the spec's inference, R174): from `BIDX = 0`, the context after `4 * n` NEXTBs is that after `n` NEXTs, and the four
NEXTBs of a word return its bytes in the order of `to_little_endian`. -/
def Obligations.FourNextbsReadOneWord : Prop :=
  ∀ s : State, s.config.byteMode = true → s.core.ctx.bidx = 0 →
    ∃ u v : Nat → CoreState s.config.width,
      (∀ n, execTimes .nextb n s = .next { s with core := u n }) ∧
      (∀ n, execTimes .next n s = .next { s with core := v n }) ∧
      ∀ n, (u (4 * n)).ctx = (v n).ctx ∧
        ∀ j < 4, ∃ byte : Byte, (wordToLittleEndian (v n).ctx.currentWord)[j]? = some byte ∧
          (u (4 * n + j + 1)).out = byte.setWidth _

/-- R173: NEXT and STREAM neither read nor write `BIDX`: NEXT returns the whole word and leaves `BIDX = k`, and a later NEXTB starts at byte
`k` of the new word. -/
def Obligations.WordReadsIgnoreTheByteIndex : Prop :=
  (∀ (i : Instr) (s t : State) (n : BitVec 2), (i = .next ∨ ∃ abs count, i = .stream abs count) →
    exec i s = .next t →
    t.core.ctx.bidx = s.core.ctx.bidx ∧
    exec i (s.modify fun k => { k with ctx := { k.ctx with bidx := n } }) =
      .next (t.modify fun k => { k with ctx := { k.ctx with bidx := n } })) ∧
  (∀ s : State, s.config.byteMode = true → ∃ t u : CoreState s.config.width,
    exec .next s = .next { s with core := t } ∧ exec .nextb { s with core := t } = .next { s with core := u } ∧
    t.out = s.core.ctx.res.read s.core.ctx.cur ∧
    u.out = ((t.ctx.res.read t.ctx.cur).extractLsb' (8 * s.core.ctx.bidx.toNat) 8).setWidth _)

/-- R33 and R34: what each command does to the ghost state of the granularity contract, and what a reset leaves in it. -/
def Obligations.GhostRecordsGranularityAndMixing : Prop :=
  (∀ (i : Instr) (s t : State), exec i s = .next t →
    ((∃ abs len, i = .init abs len) ∨ i = .erase → t.core.gran = .none ∧ t.core.mixed = false) ∧
    (i = .next ∨ (∃ count, i = .stream false count ∧ 1 ≤ count.toNat) →
      t.core.gran = (if s.core.gran = .none then .word else s.core.gran) ∧
      (t.core.mixed = true ↔ s.core.mixed = true ∨ s.core.gran = .byte)) ∧
    (i = .nextb → s.config.byteMode = true →
      t.core.gran = (if s.core.gran = .none then .byte else s.core.gran) ∧
      (t.core.mixed = true ↔ s.core.mixed = true ∨ s.core.gran = .word)) ∧
    ((∃ count, i = .stream true count) ∨ (∃ abs, i = .stream abs 0) ∨ (i = .nextb ∧ s.config.byteMode = false) ∨
      (∃ v, peekedValue s.core.ctx i = some v) → t.core.gran = s.core.gran ∧ t.core.mixed = s.core.mixed)) ∧
  (∀ (s t : State) draw rest, s.core.pending = .reset draw :: rest → step s = .next t →
    t.core.gran = .none ∧ t.core.mixed = false)

/-! ## ERASE and PEEK -/

/-- R190: the word `0x00000005` is ERASE, and any other word with opcode 5 is illegal with cause 2. ERASE completes on every state and
zeroes the context and `OUT`, clears `INIT_DONE` and the ghost state, and leaves `ILLEGAL`, `ECAUSE`, `ERRCMD`, both buffers and the rest.
-/
def Obligations.EraseZeroesTheContext : Prop :=
  (∀ (cfg : Config) (v : CommandWord), opField v = 5 → decode cfg v =
    if v = 0x00000005#32 then .ok .erase else .error .reservedField) ∧
  ∀ s : State, ∃ x : Context s.config.width,
    exec .erase s = .next { s with core := { s.core with
      ctx := x, out := 0, initDone := false, gran := .none, mixed := false } } ∧
    (∀ i : Index, x.res.read i = 0 ∧ x.mem.read i = 0) ∧ x.a = 0 ∧ x.b = 0 ∧ x.c = 0 ∧ x.cur = 0 ∧ x.bidx = 0

/-- R192 to R199: the words of the PEEK family, and the causes of the other words with opcode 6. Every PEEK that the configuration has
completes, copies its element, zero-extended, into `OUT`, and changes nothing else. -/
def Obligations.PeekCopiesOneElement : Prop :=
  (∀ (cfg : Config) (v : CommandWord), opField v = 6 → decode cfg v =
    if cfg.peekEn = false ∨ (selField v = 6 ∧ cfg.byteMode = false) then .error .featureAbsent
    else
      match peekOf (selField v) (idxField v) with
      | some i => if v = encode i then .ok i else .error .reservedField
      | none => .error .reservedField) ∧
  (∀ idx : Index, encode (.peekRes idx) = 0x00000006#32 ||| idx.setWidth 32 <<< 8 ∧
    encode (.peekMem idx) = 0x00000026#32 ||| idx.setWidth 32 <<< 8) ∧
  encode .peekA = 0x00000046#32 ∧ encode .peekB = 0x00000066#32 ∧ encode .peekC = 0x00000086#32 ∧
  encode .peekCur = 0x000000A6#32 ∧ encode .peekBidx = 0x000000C6#32 ∧
  ∀ s : State, s.config.peekEn = true →
    (∀ idx : Index, exec (.peekRes idx) s = .next { s with core := { s.core with out := s.core.ctx.res.read idx } }) ∧
    (∀ idx : Index, exec (.peekMem idx) s = .next { s with core := { s.core with out := s.core.ctx.mem.read idx } }) ∧
    exec .peekA s = .next { s with core := { s.core with out := s.core.ctx.a } } ∧
    exec .peekB s = .next { s with core := { s.core with out := s.core.ctx.b } } ∧
    exec .peekC s = .next { s with core := { s.core with out := s.core.ctx.c } } ∧
    exec .peekCur s = .next { s with core := { s.core with out := s.core.ctx.cur.setWidth _ } } ∧
    (s.config.byteMode = true →
      exec .peekBidx s = .next { s with core := { s.core with out := s.core.ctx.bidx.setWidth _ } })

/-- `exec` past the decoder: a command that the configuration lacks takes `IllegalCommand(3)` with its own word in `ERRCMD` (the model's reading, log
entry 9). -/
def Obligations.ExecOfAbsentCommandTakesTheException : Prop :=
  ∀ (i : Instr) (s : State), i.wellFormed s.config = false →
    exec i s = .next { s with core := { s.core with
      illegal := true, ecause := 3, errCmd := encode i, faults := ⟨.featureAbsent, encode i⟩ :: s.core.faults } }

/-- The access table of R38 (the spec's inference): which state no command, and which only some command, writes. -/
def Obligations.CommandsWriteOnlyTheirColumns : Prop :=
  ∀ (i : Instr) (s t : State), exec i s = .next t →
    ∃ k : CoreState s.config.width, t = { s with core := k } ∧
      k.seedBuf = s.core.seedBuf ∧ k.pending = s.core.pending ∧ k.readData = s.core.readData ∧
      ((∀ count, i ≠ .stream false count) → k.outBuf = s.core.outBuf) ∧
      (i.wellFormed s.config = true → k.illegal = s.core.illegal ∧ k.ecause = s.core.ecause ∧ k.errCmd = s.core.errCmd) ∧
      (i.wellFormed s.config = false ∨ (∃ v, peekedValue s.core.ctx i = some v) → k.ctx = s.core.ctx) ∧
      ((i = .next ∨ i = .nextb) → (s.core.ctx.cur ≠ 0 ∨ (i = .nextb ∧ s.core.ctx.bidx ≠ 3)) →
        k.ctx.res = s.core.ctx.res ∧ k.ctx.mem = s.core.ctx.mem ∧
        k.ctx.a = s.core.ctx.a ∧ k.ctx.b = s.core.ctx.b ∧ k.ctx.c = s.core.ctx.c) ∧
      (∀ count, i = .stream false count → count.toNat ≤ s.core.ctx.cur.toNat →
        k.ctx.res = s.core.ctx.res ∧ k.ctx.mem = s.core.ctx.mem ∧
        k.ctx.a = s.core.ctx.a ∧ k.ctx.b = s.core.ctx.b ∧ k.ctx.c = s.core.ctx.c)

/-! ## The step and the host -/

/-- A step runs the decoded command: with a command word waiting that decodes to `i`, the step is `exec i` at the state with the host's
action taken off the list. The list is the model's own (log entry 3). -/
def Obligations.StepRunsTheDecodedCommand : Prop :=
  ∀ (s : State) (v : CommandWord) (rest : List (HostAction s.config.width)) (i : Instr),
    s.commandWaiting v rest → decode s.config v = .ok i → step s = exec i (s.withPending rest)

/-- With no host action waiting the core is idle and holds its state (R224, R241). The list is the model's own (log entry 3). -/
def Obligations.IdleCoreHoldsItsState : Prop :=
  ∀ s : State, s.core.pending = [] → step s = .next s

/-- R60: what a host read returns at each offset of the register block, and in which order the halves of a 64-bit `OUT` lie. -/
def Obligations.RegisterMapReads : Prop :=
  ∀ s : State,
    s.readsAs 0x00 .b32 (.d32 0) ∧ s.readsAs 0x04 .b32 (.d32 (statusWord s.config s.core)) ∧
    s.readsAs 0x08 .b32 (.d32 s.core.errCmd) ∧ s.readsAs 0x0C .b32 (.d32 0) ∧
    s.readsAs 0x10 (wordSize s.config.width) (wordData s.config.width s.core.out) ∧
    (s.config.width = .w64 → s.config.outHalfOrder = .lowFirst →
      s.readsAs 0x10 .b32 (.d32 (s.core.out.extractLsb' 0 32)) ∧
      s.readsAs 0x14 .b32 (.d32 (s.core.out.extractLsb' 32 32))) ∧
    (s.config.width = .w64 → s.config.outHalfOrder = .highFirst →
      s.readsAs 0x10 .b32 (.d32 (s.core.out.extractLsb' 32 32)) ∧
      s.readsAs 0x14 .b32 (.d32 (s.core.out.extractLsb' 0 32)))

/-- The fields of `STATUS` (R26). -/
def Obligations.StatusLayout : Prop :=
  ∀ (cfg : Config) (k : CoreState cfg.width), let v := statusWord cfg k
    v.getLsbD 0 = k.initDone ∧ v.getLsbD 1 = k.illegal ∧ v.extractLsb' 2 3 = k.ecause ∧
    (v.getLsbD 5 = true ↔ cfg.width = .w64) ∧ v.getLsbD 6 = cfg.byteMode ∧ v.getLsbD 7 = cfg.peekEn ∧
    v.extractLsb' 8 24 = 0

/-- The only register access with a side effect is a write to `CMD` (R59): a host write elsewhere in the block, or a host read, that the
core answers changes only the host's list and the host's read data, and a write not even that. -/
def Obligations.OnlyCommandWritesHaveEffects : Prop :=
  (∀ (s t : State) (addr : Nat) (data : BusData) (rest : List (HostAction s.config.width)),
    s.core.pending = .write addr data :: rest → addr ≠ s.config.regBase → step s = .next t →
    t = { s with core := { s.core with pending := rest } }) ∧
  (∀ (s t : State) (addr : Nat) (size : BusSize) (rest : List (HostAction s.config.width)),
    s.core.pending = .read addr size :: rest → step s = .next t →
    ∃ v, t = { s with core := { s.core with pending := rest, readData := some v } }) ∧
  (∀ (s : State) (v : BitVec 32) (rest : List (HostAction s.config.width)) (offset : Nat),
    (offset = 0x04 ∨ offset = 0x08 ∨ offset = 0x0C) →
    s.core.pending = .write (s.config.regBase + offset) (.d32 v) :: rest →
    step s = .next { s with core := { s.core with pending := rest } }) ∧
  (∀ (s : State) (v : Word s.config.width) (rest : List (HostAction s.config.width)),
    s.core.pending = .write (s.config.regBase + 0x10) (wordData s.config.width v) :: rest →
    step s = .next { s with core := { s.core with pending := rest } })

/-- The core does not answer an access outside the register block (R61). The refusal and its name are the model's (log entry 12). -/
def Obligations.AccessOutsideTheBlockIsRefused : Prop :=
  ∀ (s : State) (addr : Nat) (rest : List (HostAction s.config.width)),
    (addr < s.config.regBase ∨ s.config.regBase + 0x10 + s.config.width.bits / 8 ≤ addr) →
    (∀ size, s.core.pending = .read addr size :: rest → step s = .refused .outsideRegisterBlock) ∧
    (∀ data, s.core.pending = .write addr data :: rest → step s = .refused .outsideRegisterBlock)

/-- Binding a buffer (R50, R57): a bound seed buffer gives its bytes in ascending order, a bound output buffer has its slots and words, and
each binding changes only its own buffer and the host's list. How long a binding lasts is the model's choice (log entry 6). -/
def Obligations.BoundBuffersReadBack : Prop :=
  (∀ (s : State) (bytes : List Byte) (rest : List (HostAction s.config.width)),
    s.core.pending = .bindSeed bytes :: rest →
    ∃ b : SeedBuffer, step s = .next { s with core := { s.core with seedBuf := b, pending := rest } } ∧
      (∀ i, Memory.read (α := Byte) b i = bytes[i]?) ∧
      (∀ l ≤ bytes.length, seedBytes b l = some (bytes.take l))) ∧
  (∀ (s : State) (slots : Nat) (contents : List (Word s.config.width)) (rest : List (HostAction s.config.width)),
    s.core.pending = .bindOut slots contents :: rest →
    ∃ b : OutBuffer s.config.width, step s = .next { s with core := { s.core with outBuf := b, pending := rest } } ∧
      b.slots = slots ∧ ∀ i, b.read i = if i < slots then contents[i]? else none)

/-- The placing of a command word as the host's next action (log entries 3 and 4): the very next step runs exactly that command, the buffers
that it uses are long enough, and nothing else of the core is changed for it. -/
def Obligations.PlacedWordRunsNext : Prop :=
  ∀ (s : State) (v : CommandWord) (i : Instr), decode s.config v = .ok i →
    ∃ (seedBuf : SeedBuffer) (slots : Nat) (t : State),
      let placed : State := { s with core := { s.core with
        seedBuf := seedBuf, outBuf := { s.core.outBuf with slots := slots } } }
      step (s.withFetchWord 32 v.toNat) = exec i placed ∧ exec i placed = .next t ∧
      s.core.outBuf.slots ≤ slots ∧
      (∀ j b, Memory.read (α := Byte) s.core.seedBuf j = some b → Memory.read (α := Byte) seedBuf j = some b)

/-! ## The invariant -/

/-- The invariant holds after a reset, for every configuration and every draw. -/
def Obligations.ResetMeetsTheInvariant : Prop :=
  ∀ (cfg : Config) (draw : Context cfg.width), (State.resetWith cfg draw).Inv

/-- From every state that meets the invariant, a step gives a state that meets it: both buffers keep their canonical form, `BIDX` stays 0
where it does not exist, the status registers tell of the most recent illegal command, and `b` stays the last word of an initialised batch.
-/
def Obligations.StepKeepsTheInvariant : Prop :=
  ∀ s t : State, s.Inv → step s = .next t → t.Inv

/-! ## The host's tools -/

/-- R64 and R65: byte `j` of word `i` in the two layouts, and the lengths; the big-endian layout of a word is the reverse of the little-endian one. -/
def Obligations.EndianCodecLayouts : Prop :=
  ∀ (w : Width) (words : List (Word w)),
    (toLittleEndian words).length = words.length * (w.bits / 8) ∧
    (toBigEndian words).length = words.length * (w.bits / 8) ∧
    (∀ (i j : Nat) (v : Word w), words[i]? = some v → j < w.bits / 8 →
      (toLittleEndian words)[i * (w.bits / 8) + j]? = some (v.extractLsb' (8 * j) 8) ∧
      (toBigEndian words)[i * (w.bits / 8) + j]? = some (v.extractLsb' (w.bits - 8 - 8 * j) 8)) ∧
    (∀ v : Word w, wordToBigEndian v = (wordToLittleEndian v).reverse)

/-- The assembler (R81, R82): a line in range gives the word that decodes to its command, and a number out of range is refused. -/
def Obligations.AssemblerGivesDecodableWords : Prop :=
  ∀ cfg : Config, cfg.peekEn = true →
    (∀ (abs : Bool) (n : Nat), n < 65536 → ∃ v, assemble (.init abs n) = .command v false ∧
      decode cfg v = .ok (.init abs (BitVec.ofNat 16 n))) ∧
    (∀ (abs : Bool) (n : Nat), n < 65536 → ∃ v, assemble (.stream abs n) = .command v false ∧
      decode cfg v = .ok (.stream abs (BitVec.ofNat 16 n))) ∧
    (∀ n : Nat, n < 256 → ∃ v, assemble (.peekRes n) = .command v false ∧
      decode cfg v = .ok (.peekRes (BitVec.ofNat 8 n))) ∧
    (∀ n : Nat, n < 256 → ∃ v, assemble (.peekMem n) = .command v false ∧
      decode cfg v = .ok (.peekMem (BitVec.ofNat 8 n))) ∧
    assemble .initZero = .command 0x00000011#32 true ∧
    (∀ n : Nat, n < 2 ^ 32 → assemble (.word n) = .command (BitVec.ofNat 32 n) false) ∧
    (∀ (abs : Bool) (n : Nat), 65536 ≤ n → assemble (.init abs n) = .refused ∧ assemble (.stream abs n) = .refused) ∧
    (∀ n : Nat, 256 ≤ n → assemble (.peekRes n) = .refused ∧ assemble (.peekMem n) = .refused)
end

