-- ==== Sys2Proof/Laws/Memory.lean ====
section
/-!
SUPPORT. The laws of host memory and of the context arrays: a read after a write to the same place gives the value written, a write leaves
every other place alone, and every operation keeps the canonical form.
-/

namespace Sys2Proof

@[simp] theorem Bank.read_write_same {w : Width} (v : Bank w) (i : Index) (x : Word w) : (v.write i x).read i = x := by
  simp [Bank.read, Bank.write]

theorem Bank.read_write_other {w : Width} (v : Bank w) {i j : Index} (x : Word w) (h : j ≠ i) :
    (v.write i x).read j = v.read j := by
  have : i.toNat ≠ j.toNat := fun e => h (BitVec.eq_of_toNat_eq e.symm)
  simp [Bank.read, Bank.write, this]

theorem Bank.read_write {w : Width} (v : Bank w) (i j : Index) (x : Word w) :
    (v.write i x).read j = if j = i then x else v.read j := by
  by_cases h : j = i
  · simp [h]
  · simp [h, Bank.read_write_other v x h]

/-- Two arrays with the same elements are the same array. -/
theorem Bank.ext {w : Width} {u v : Bank w} (h : ∀ i : Index, u.read i = v.read i) : u = v := by
  apply Vector.ext
  intro n hn
  have := h (BitVec.ofNat 8 n)
  simpa [Bank.read, Nat.mod_eq_of_lt hn] using this

@[simp] theorem Bank.read_replicate {w : Width} (x : Word w) (i : Index) : Bank.read (Vector.replicate 256 x) i = x := by
  simp [Bank.read]

namespace Machine

variable {α : Type}

@[simp] theorem Memory.read_nil (i : Nat) : Memory.read ([] : Memory α) i = none := rfl

@[simp] theorem Memory.read_write_same (m : Memory α) (i : Nat) (v : α) : Memory.read (Memory.write m i v) i = some v := by
  induction m with
  | nil => simp [Memory.write, Memory.read]
  | cons x rest ih =>
    obtain ⟨j, u⟩ := x
    simp only [Memory.write]
    split
    · simp [Memory.read]
    · split
      · simp [Memory.read]
      · rename_i h1 h2
        simp [Memory.read, h2, ih]

theorem Memory.read_write_other (m : Memory α) {i j : Nat} (v : α) (h : j ≠ i) :
    Memory.read (Memory.write m i v) j = Memory.read m j := by
  induction m with
  | nil => simp [Memory.write, Memory.read, h]
  | cons x rest ih =>
    obtain ⟨l, u⟩ := x
    simp only [Memory.write]
    split
    · simp [Memory.read, h]
    · split
      · rename_i h1 h2
        subst h2
        simp [Memory.read, h]
      · simp [Memory.read, ih]

/-- The indices of a written memory are the old ones and the one written. -/
theorem Memory.mem_write {m : Memory α} {i : Nat} {v : α} {x : Nat × α} (h : x ∈ Memory.write m i v) :
    x = (i, v) ∨ x ∈ m := by
  induction m with
  | nil => simpa [Memory.write] using h
  | cons y rest ih =>
    obtain ⟨j, u⟩ := y
    simp only [Memory.write] at h
    split at h
    · simpa using h
    · split at h
      · rcases List.mem_cons.1 h with h | h
        · exact .inl h
        · exact .inr (List.mem_cons_of_mem _ h)
      · rcases List.mem_cons.1 h with h | h
        · exact .inr (h ▸ List.mem_cons_self)
        · rcases ih h with h | h
          · exact .inl h
          · exact .inr (List.mem_cons_of_mem _ h)

/-- A write keeps the canonical form. -/
theorem Memory.write_wf {m : Memory α} (h : Memory.wf m) (i : Nat) (v : α) : Memory.wf (Memory.write m i v) := by
  induction m with
  | nil => simp [Memory.write, Memory.wf]
  | cons y rest ih =>
    obtain ⟨j, u⟩ := y
    have hr := List.pairwise_cons.1 h
    simp only [Memory.write]
    split
    · rename_i hij
      refine List.pairwise_cons.2 ⟨?_, h⟩
      intro x hx
      rcases List.mem_cons.1 hx with hx | hx
      · subst hx; exact hij
      · exact Nat.lt_trans hij (hr.1 x hx)
    · split
      · rename_i hij
        exact List.pairwise_cons.2 ⟨fun x hx => by simpa [hij] using hr.1 x hx, hr.2⟩
      · rename_i h1 h2
        refine List.pairwise_cons.2 ⟨?_, ih hr.2⟩
        intro x hx
        rcases Memory.mem_write hx with hx | hx
        · subst hx; simp; omega
        · exact hr.1 x hx

theorem Memory.mem_ofListFrom {n : Nat} {xs : List α} {x : Nat × α} (h : x ∈ Memory.ofListFrom n xs) :
    n ≤ x.1 ∧ x.1 < n + xs.length := by
  induction xs generalizing n with
  | nil => simp [Memory.ofListFrom] at h
  | cons a as ih =>
    rcases List.mem_cons.1 h with h | h
    · subst h; simp
    · have := ih h
      simp only [List.length_cons]; omega

/-- The memory of a list is in canonical form. -/
theorem Memory.ofListFrom_wf (n : Nat) (xs : List α) : Memory.wf (Memory.ofListFrom n xs) := by
  induction xs generalizing n with
  | nil => simp [Memory.ofListFrom, Memory.wf]
  | cons a as ih =>
    exact List.pairwise_cons.2 ⟨fun x hx => by have := Memory.mem_ofListFrom hx; simp; omega, ih (n + 1)⟩

theorem Memory.read_ofListFrom (n : Nat) (xs : List α) (i : Nat) :
    Memory.read (Memory.ofListFrom n xs) (n + i) = xs[i]? := by
  induction xs generalizing n i with
  | nil => simp [Memory.ofListFrom]
  | cons a as ih =>
    cases i with
    | zero => simp [Memory.ofListFrom, Memory.read]
    | succ i =>
      have := ih (n + 1) i
      rw [show n + 1 + i = n + (i + 1) by omega] at this
      simp [Memory.ofListFrom, Memory.read, this]

/-- Reading a range gives the elements in ascending order. -/
theorem Memory.readRange_eq_some {m : Memory α} {i n : Nat} {vs : List α} :
    Memory.readRange m i n = some vs ↔ vs.length = n ∧ ∀ j < n, Memory.read m (i + j) = vs[j]? := by
  induction n generalizing i vs with
  | zero =>
    simp only [Memory.readRange, Option.some.injEq]
    constructor
    · rintro rfl; simp
    · rintro ⟨h, -⟩; exact (List.eq_nil_of_length_eq_zero h).symm
  | succ n ih =>
    simp only [Memory.readRange]
    constructor
    · intro h
      split at h
      · rename_i v us hv hus
        obtain rfl := Option.some.inj h
        obtain ⟨hl, hr⟩ := ih.1 hus
        refine ⟨by simp [hl], fun j hj => ?_⟩
        cases j with
        | zero => simpa using hv
        | succ j => have := hr j (by omega); rw [show i + (j + 1) = i + 1 + j by omega, this]; simp
      · cases h
    · rintro ⟨hl, hr⟩
      cases vs with
      | nil => simp at hl
      | cons v us =>
        have h0 := hr 0 (by omega)
        have hus : Memory.readRange m (i + 1) n = some us :=
          ih.2 ⟨by simpa using hl, fun j hj => by
            have := hr (j + 1) (by omega)
            rw [show i + 1 + j = i + (j + 1) by omega, this]; simp⟩
        simp at h0
        simp [h0, hus]

/-- A range can be read when each of its elements is there. -/
theorem Memory.readRange_isSome {m : Memory α} {i n : Nat} (h : ∀ j < n, (Memory.read m (i + j)).isSome = true) :
    ∃ vs, Memory.readRange m i n = some vs := by
  induction n generalizing i with
  | zero => exact ⟨[], rfl⟩
  | succ n ih =>
    obtain ⟨v, hv⟩ := Option.isSome_iff_exists.1 (h 0 (by omega))
    obtain ⟨vs, hvs⟩ := ih (i := i + 1) fun j hj => by
      have := h (j + 1) (by omega)
      rwa [show i + (j + 1) = i + 1 + j by omega] at this
    refine ⟨v :: vs, ?_⟩
    simp at hv
    simp [Memory.readRange, hv, hvs]

@[simp] theorem OutBuffer.write_slots {w : Width} (b : OutBuffer w) (i : Nat) (v : Word w) : (b.write i v).slots = b.slots := rfl

@[simp] theorem OutBuffer.read_write_same {w : Width} (b : OutBuffer w) (i : Nat) (v : Word w) : (b.write i v).read i = some v :=
  Memory.read_write_same b.cells i v

theorem OutBuffer.read_write_other {w : Width} (b : OutBuffer w) {i j : Nat} (v : Word w) (h : j ≠ i) :
    (b.write i v).read j = b.read j := Memory.read_write_other b.cells v h

/-- A write inside the buffer keeps its invariant. -/
theorem OutBuffer.write_wf {w : Width} {b : OutBuffer w} (h : b.wf) {i : Nat} (hi : i < b.slots) (v : Word w) : (b.write i v).wf :=
  ⟨Memory.write_wf h.1 i v, fun x hx => (Memory.mem_write hx).elim (fun e => e ▸ hi) (h.2 x)⟩

/-- A binding gives a buffer that meets its invariant. -/
theorem outBufferOf_wf {w : Width} (slots : Nat) (contents : List (Word w)) : (outBufferOf slots contents).wf := by
  refine ⟨Memory.ofListFrom_wf 0 _, fun x hx => ?_⟩
  have hb := Memory.mem_ofListFrom hx
  simp only [List.length_take] at hb
  show x.1 < slots
  omega

theorem seedBufferOf_wf (bytes : List Byte) : Memory.wf (α := Byte) (seedBufferOf bytes) := Memory.ofListFrom_wf (α := Byte) 0 bytes

end Machine

end Sys2Proof
end

