-- ==== Sys2Proof/Laws/Shuffle.lean ====
section
/-!
SUPPORT. What a micro-step and a run of micro-steps can do: which elements they write and which they leave.
-/

namespace Sys2Proof.Machine

variable {w : Width}

@[simp] theorem Context.microStep_c (i : Index) (s : Context w) : (s.microStep i).c = s.c := rfl
@[simp] theorem Context.microStep_cur (i : Index) (s : Context w) : (s.microStep i).cur = s.cur := rfl
@[simp] theorem Context.microStep_bidx (i : Index) (s : Context w) : (s.microStep i).bidx = s.bidx := rfl

/-- A micro-step writes one element of `MEM`. -/
theorem Context.microStep_mem_other {i j : Index} (s : Context w) (h : j ≠ i) :
    (s.microStep i).mem.read j = s.mem.read j := Bank.read_write_other _ _ h

/-- A micro-step writes one element of `RES`. -/
theorem Context.microStep_res_other {i j : Index} (s : Context w) (h : j ≠ i) :
    (s.microStep i).res.read j = s.res.read j := Bank.read_write_other _ _ h

/-- The element of `RES` that a micro-step writes is the new `b` (R134). -/
theorem Context.microStep_res_self (i : Index) (s : Context w) : (s.microStep i).res.read i = (s.microStep i).b :=
  Bank.read_write_same _ _ _

/-- Setting the cursor to its own value. Cite it rather than `rfl`, which would have the kernel run a Shuffle that `x` stands for. -/
theorem Context.set_cur_self {x : Context w} {cur : Index} (h : x.cur = cur) : ({ x with cur := cur } : Context w) = x := by
  subst h
  cases x
  rfl

/-- Setting the byte index to its own value. -/
theorem Context.set_bidx_self {x : Context w} {bidx : BitVec 2} (h : x.bidx = bidx) : ({ x with bidx := bidx } : Context w) = x := by
  subst h
  cases x
  rfl

/-- No micro-step. -/
theorem Context.microSteps_zero (s : Context w) : s.microSteps 0 = s := rfl

/-- One micro-step more. -/
theorem Context.microSteps_succ (n : Nat) (s : Context w) :
    s.microSteps (n + 1) = (s.microSteps n).microStep (BitVec.ofNat 8 n) := rfl

@[simp] theorem Context.microSteps_c (n : Nat) (s : Context w) : (s.microSteps n).c = s.c := by
  induction n with
  | zero => rw [Context.microSteps_zero]
  | succ n ih => rw [Context.microSteps_succ, Context.microStep_c, ih]

@[simp] theorem Context.microSteps_cur (n : Nat) (s : Context w) : (s.microSteps n).cur = s.cur := by
  induction n with
  | zero => rw [Context.microSteps_zero]
  | succ n ih => rw [Context.microSteps_succ, Context.microStep_cur, ih]

@[simp] theorem Context.microSteps_bidx (n : Nat) (s : Context w) : (s.microSteps n).bidx = s.bidx := by
  induction n with
  | zero => rw [Context.microSteps_zero]
  | succ n ih => rw [Context.microSteps_succ, Context.microStep_bidx, ih]

/-- Different numbers below 256 are different indices. -/
theorem index_ne {m n : Nat} (hm : m < 256) (hn : n < 256) (h : m ≠ n) : BitVec.ofNat 8 m ≠ BitVec.ofNat 8 n := by
  intro e
  have := congrArg BitVec.toNat e
  simp only [BitVec.toNat_ofNat] at this
  omega

/-- The micro-steps after step `j` leave the element that step `j` wrote. -/
theorem Context.microSteps_keep {j n : Nat} (hj : j < n) (hn : n ≤ 256) (s : Context w) :
    (s.microSteps n).mem.read (BitVec.ofNat 8 j) = (s.microSteps (j + 1)).mem.read (BitVec.ofNat 8 j) ∧
    (s.microSteps n).res.read (BitVec.ofNat 8 j) = (s.microSteps (j + 1)).res.read (BitVec.ofNat 8 j) := by
  induction n with
  | zero => omega
  | succ n ih =>
    by_cases h : j = n
    · subst h; exact ⟨rfl, rfl⟩
    · have hne : BitVec.ofNat 8 j ≠ BitVec.ofNat 8 n := index_ne (by omega) (by omega) h
      obtain ⟨h1, h2⟩ := ih (by omega) (by omega)
      rw [Context.microSteps_succ n]
      exact ⟨(Context.microStep_mem_other _ hne).trans h1, (Context.microStep_res_other _ hne).trans h2⟩

/-- The micro-steps before step `j` leave element `j` as it was. -/
theorem Context.microSteps_later {j n : Nat} (hj : n ≤ j) (hjN : j < 256) (s : Context w) :
    (s.microSteps n).mem.read (BitVec.ofNat 8 j) = s.mem.read (BitVec.ofNat 8 j) := by
  induction n with
  | zero => rw [Context.microSteps_zero]
  | succ n ih =>
    have hne : BitVec.ofNat 8 j ≠ BitVec.ofNat 8 n := index_ne (by omega) (by omega) (by omega)
    rw [Context.microSteps_succ]
    exact (Context.microStep_mem_other _ hne).trans (ih (by omega))

/-- A Shuffle is the round counter's part and 256 micro-steps (R130). -/
theorem Context.shuffle_eq (s : Context w) : s.shuffle = s.countRound.microSteps 256 := by
  unfold Context.shuffle
  rfl

@[simp] theorem Context.shuffle_cur (s : Context w) : s.shuffle.cur = s.cur := by
  rw [Context.shuffle_eq, Context.microSteps_cur]
  rfl

@[simp] theorem Context.shuffle_bidx (s : Context w) : s.shuffle.bidx = s.bidx := by
  rw [Context.shuffle_eq, Context.microSteps_bidx]
  rfl

@[simp] theorem Context.shuffle_c (s : Context w) : s.shuffle.c = s.c + 1 := by
  rw [Context.shuffle_eq, Context.microSteps_c]
  rfl

/-- A run of micro-steps reads no element of `RES` and neither `CUR` nor `BIDX`; a step writes its own element whatever was there. -/
theorem Context.microSteps_with (n : Nat) (s : Context w) (res : Bank w) (cur : Index) (bidx : BitVec 2) :
    ∃ res', ({ s with res := res, cur := cur, bidx := bidx } : Context w).microSteps n =
        { s.microSteps n with res := res', cur := cur, bidx := bidx } ∧
      ∀ i < n, i < 256 → res'.read (BitVec.ofNat 8 i) = (s.microSteps n).res.read (BitVec.ofNat 8 i) := by
  induction n with
  | zero => exact ⟨res, rfl, by simp⟩
  | succ n ih =>
    obtain ⟨r, h, hr⟩ := ih
    refine ⟨r.write (BitVec.ofNat 8 n) ((s.microSteps n).microStep (BitVec.ofNat 8 n)).b, ?_, ?_⟩
    · rw [Context.microSteps_succ, Context.microSteps_succ, h]
      rfl
    · intro i hi hN
      rw [Context.microSteps_succ]
      by_cases e : BitVec.ofNat 8 i = BitVec.ofNat 8 n
      · rw [e, Context.microStep_res_self, Bank.read_write_same]
      · rw [Context.microStep_res_other _ e, Bank.read_write_other _ _ e]
        have : i ≠ n := fun h => e (h ▸ rfl)
        exact hr i (by omega) hN

/-- A Shuffle ends with `b` in the last element of `RES`: that element is what its last micro-step writes. -/
theorem Context.shuffle_last (s : Context w) : s.shuffle.res.read 255 = s.shuffle.b := by
  rw [Context.shuffle_eq, Context.microSteps_succ]
  exact Context.microStep_res_self (BitVec.ofNat 8 255) (s.countRound.microSteps 255)

end Sys2Proof.Machine
end

