-- ==== Sys2Proof/Laws/State.lean ====
section
/-!
SUPPORT. One lemma per field per update of a core, so that no later proof unfolds a record update.
-/

namespace Sys2Proof.Machine

variable {w : Width}

@[simp] theorem State.modify_config (s : State) (f : CoreState s.config.width → CoreState s.config.width) :
    (s.modify f).config = s.config := rfl
@[simp] theorem State.modify_core (s : State) (f : CoreState s.config.width → CoreState s.config.width) :
    (s.modify f).core = f s.core := rfl
@[simp] theorem State.takeIllegalCommand_config (s : State) (word : CommandWord) (cause : Cause) :
    (s.takeIllegalCommand word cause).config = s.config := rfl
@[simp] theorem State.takeIllegalCommand_core (s : State) (word : CommandWord) (cause : Cause) :
    (s.takeIllegalCommand word cause).core = s.core.takeIllegal word cause := rfl

@[simp] theorem CoreState.setOut_ctx (k : CoreState w) (v : Word w) : (k.setOut v).ctx = k.ctx := rfl
@[simp] theorem CoreState.setOut_initDone (k : CoreState w) (v : Word w) : (k.setOut v).initDone = k.initDone := rfl
@[simp] theorem CoreState.setOut_illegal (k : CoreState w) (v : Word w) : (k.setOut v).illegal = k.illegal := rfl
@[simp] theorem CoreState.setOut_ecause (k : CoreState w) (v : Word w) : (k.setOut v).ecause = k.ecause := rfl
@[simp] theorem CoreState.setOut_out (k : CoreState w) (v : Word w) : (k.setOut v).out = v := rfl
@[simp] theorem CoreState.setOut_errCmd (k : CoreState w) (v : Word w) : (k.setOut v).errCmd = k.errCmd := rfl
@[simp] theorem CoreState.setOut_seedBuf (k : CoreState w) (v : Word w) : (k.setOut v).seedBuf = k.seedBuf := rfl
@[simp] theorem CoreState.setOut_outBuf (k : CoreState w) (v : Word w) : (k.setOut v).outBuf = k.outBuf := rfl
@[simp] theorem CoreState.setOut_gran (k : CoreState w) (v : Word w) : (k.setOut v).gran = k.gran := rfl
@[simp] theorem CoreState.setOut_mixed (k : CoreState w) (v : Word w) : (k.setOut v).mixed = k.mixed := rfl
@[simp] theorem CoreState.setOut_faults (k : CoreState w) (v : Word w) : (k.setOut v).faults = k.faults := rfl
@[simp] theorem CoreState.setOut_pending (k : CoreState w) (v : Word w) : (k.setOut v).pending = k.pending := rfl
@[simp] theorem CoreState.setOut_readData (k : CoreState w) (v : Word w) : (k.setOut v).readData = k.readData := rfl

@[simp] theorem CoreState.setCtx_ctx (k : CoreState w) (x : Context w) : (k.setCtx x).ctx = x := rfl
@[simp] theorem CoreState.setCtx_initDone (k : CoreState w) (x : Context w) : (k.setCtx x).initDone = k.initDone := rfl
@[simp] theorem CoreState.setCtx_illegal (k : CoreState w) (x : Context w) : (k.setCtx x).illegal = k.illegal := rfl
@[simp] theorem CoreState.setCtx_ecause (k : CoreState w) (x : Context w) : (k.setCtx x).ecause = k.ecause := rfl
@[simp] theorem CoreState.setCtx_out (k : CoreState w) (x : Context w) : (k.setCtx x).out = k.out := rfl
@[simp] theorem CoreState.setCtx_errCmd (k : CoreState w) (x : Context w) : (k.setCtx x).errCmd = k.errCmd := rfl
@[simp] theorem CoreState.setCtx_seedBuf (k : CoreState w) (x : Context w) : (k.setCtx x).seedBuf = k.seedBuf := rfl
@[simp] theorem CoreState.setCtx_outBuf (k : CoreState w) (x : Context w) : (k.setCtx x).outBuf = k.outBuf := rfl
@[simp] theorem CoreState.setCtx_gran (k : CoreState w) (x : Context w) : (k.setCtx x).gran = k.gran := rfl
@[simp] theorem CoreState.setCtx_mixed (k : CoreState w) (x : Context w) : (k.setCtx x).mixed = k.mixed := rfl
@[simp] theorem CoreState.setCtx_faults (k : CoreState w) (x : Context w) : (k.setCtx x).faults = k.faults := rfl
@[simp] theorem CoreState.setCtx_pending (k : CoreState w) (x : Context w) : (k.setCtx x).pending = k.pending := rfl
@[simp] theorem CoreState.setCtx_readData (k : CoreState w) (x : Context w) : (k.setCtx x).readData = k.readData := rfl

@[simp] theorem CoreState.setInitDone_ctx (k : CoreState w) (v : Bool) : (k.setInitDone v).ctx = k.ctx := rfl
@[simp] theorem CoreState.setInitDone_initDone (k : CoreState w) (v : Bool) : (k.setInitDone v).initDone = v := rfl
@[simp] theorem CoreState.setInitDone_illegal (k : CoreState w) (v : Bool) : (k.setInitDone v).illegal = k.illegal := rfl
@[simp] theorem CoreState.setInitDone_ecause (k : CoreState w) (v : Bool) : (k.setInitDone v).ecause = k.ecause := rfl
@[simp] theorem CoreState.setInitDone_out (k : CoreState w) (v : Bool) : (k.setInitDone v).out = k.out := rfl
@[simp] theorem CoreState.setInitDone_errCmd (k : CoreState w) (v : Bool) : (k.setInitDone v).errCmd = k.errCmd := rfl
@[simp] theorem CoreState.setInitDone_seedBuf (k : CoreState w) (v : Bool) : (k.setInitDone v).seedBuf = k.seedBuf := rfl
@[simp] theorem CoreState.setInitDone_outBuf (k : CoreState w) (v : Bool) : (k.setInitDone v).outBuf = k.outBuf := rfl
@[simp] theorem CoreState.setInitDone_gran (k : CoreState w) (v : Bool) : (k.setInitDone v).gran = k.gran := rfl
@[simp] theorem CoreState.setInitDone_mixed (k : CoreState w) (v : Bool) : (k.setInitDone v).mixed = k.mixed := rfl
@[simp] theorem CoreState.setInitDone_faults (k : CoreState w) (v : Bool) : (k.setInitDone v).faults = k.faults := rfl
@[simp] theorem CoreState.setInitDone_pending (k : CoreState w) (v : Bool) : (k.setInitDone v).pending = k.pending := rfl
@[simp] theorem CoreState.setInitDone_readData (k : CoreState w) (v : Bool) : (k.setInitDone v).readData = k.readData := rfl

@[simp] theorem CoreState.clearGhost_ctx (k : CoreState w) : (k.clearGhost).ctx = k.ctx := rfl
@[simp] theorem CoreState.clearGhost_initDone (k : CoreState w) : (k.clearGhost).initDone = k.initDone := rfl
@[simp] theorem CoreState.clearGhost_illegal (k : CoreState w) : (k.clearGhost).illegal = k.illegal := rfl
@[simp] theorem CoreState.clearGhost_ecause (k : CoreState w) : (k.clearGhost).ecause = k.ecause := rfl
@[simp] theorem CoreState.clearGhost_out (k : CoreState w) : (k.clearGhost).out = k.out := rfl
@[simp] theorem CoreState.clearGhost_errCmd (k : CoreState w) : (k.clearGhost).errCmd = k.errCmd := rfl
@[simp] theorem CoreState.clearGhost_seedBuf (k : CoreState w) : (k.clearGhost).seedBuf = k.seedBuf := rfl
@[simp] theorem CoreState.clearGhost_outBuf (k : CoreState w) : (k.clearGhost).outBuf = k.outBuf := rfl
@[simp] theorem CoreState.clearGhost_gran (k : CoreState w) : (k.clearGhost).gran = .none := rfl
@[simp] theorem CoreState.clearGhost_mixed (k : CoreState w) : (k.clearGhost).mixed = false := rfl
@[simp] theorem CoreState.clearGhost_faults (k : CoreState w) : (k.clearGhost).faults = k.faults := rfl
@[simp] theorem CoreState.clearGhost_pending (k : CoreState w) : (k.clearGhost).pending = k.pending := rfl
@[simp] theorem CoreState.clearGhost_readData (k : CoreState w) : (k.clearGhost).readData = k.readData := rfl

@[simp] theorem CoreState.markWordRead_ctx (k : CoreState w) : (k.markWordRead).ctx = k.ctx := rfl
@[simp] theorem CoreState.markWordRead_initDone (k : CoreState w) : (k.markWordRead).initDone = k.initDone := rfl
@[simp] theorem CoreState.markWordRead_illegal (k : CoreState w) : (k.markWordRead).illegal = k.illegal := rfl
@[simp] theorem CoreState.markWordRead_ecause (k : CoreState w) : (k.markWordRead).ecause = k.ecause := rfl
@[simp] theorem CoreState.markWordRead_out (k : CoreState w) : (k.markWordRead).out = k.out := rfl
@[simp] theorem CoreState.markWordRead_errCmd (k : CoreState w) : (k.markWordRead).errCmd = k.errCmd := rfl
@[simp] theorem CoreState.markWordRead_seedBuf (k : CoreState w) : (k.markWordRead).seedBuf = k.seedBuf := rfl
@[simp] theorem CoreState.markWordRead_outBuf (k : CoreState w) : (k.markWordRead).outBuf = k.outBuf := rfl
@[simp] theorem CoreState.markWordRead_gran (k : CoreState w) : (k.markWordRead).gran = if k.gran = .none then .word else k.gran := rfl
@[simp] theorem CoreState.markWordRead_mixed (k : CoreState w) : (k.markWordRead).mixed = (k.mixed || k.gran == .byte) := rfl
@[simp] theorem CoreState.markWordRead_faults (k : CoreState w) : (k.markWordRead).faults = k.faults := rfl
@[simp] theorem CoreState.markWordRead_pending (k : CoreState w) : (k.markWordRead).pending = k.pending := rfl
@[simp] theorem CoreState.markWordRead_readData (k : CoreState w) : (k.markWordRead).readData = k.readData := rfl

@[simp] theorem CoreState.markByteRead_ctx (k : CoreState w) : (k.markByteRead).ctx = k.ctx := rfl
@[simp] theorem CoreState.markByteRead_initDone (k : CoreState w) : (k.markByteRead).initDone = k.initDone := rfl
@[simp] theorem CoreState.markByteRead_illegal (k : CoreState w) : (k.markByteRead).illegal = k.illegal := rfl
@[simp] theorem CoreState.markByteRead_ecause (k : CoreState w) : (k.markByteRead).ecause = k.ecause := rfl
@[simp] theorem CoreState.markByteRead_out (k : CoreState w) : (k.markByteRead).out = k.out := rfl
@[simp] theorem CoreState.markByteRead_errCmd (k : CoreState w) : (k.markByteRead).errCmd = k.errCmd := rfl
@[simp] theorem CoreState.markByteRead_seedBuf (k : CoreState w) : (k.markByteRead).seedBuf = k.seedBuf := rfl
@[simp] theorem CoreState.markByteRead_outBuf (k : CoreState w) : (k.markByteRead).outBuf = k.outBuf := rfl
@[simp] theorem CoreState.markByteRead_gran (k : CoreState w) : (k.markByteRead).gran = if k.gran = .none then .byte else k.gran := rfl
@[simp] theorem CoreState.markByteRead_mixed (k : CoreState w) : (k.markByteRead).mixed = (k.mixed || k.gran == .word) := rfl
@[simp] theorem CoreState.markByteRead_faults (k : CoreState w) : (k.markByteRead).faults = k.faults := rfl
@[simp] theorem CoreState.markByteRead_pending (k : CoreState w) : (k.markByteRead).pending = k.pending := rfl
@[simp] theorem CoreState.markByteRead_readData (k : CoreState w) : (k.markByteRead).readData = k.readData := rfl

@[simp] theorem CoreState.takeIllegal_ctx (k : CoreState w) (word : CommandWord) (cause : Cause) : (k.takeIllegal word cause).ctx = k.ctx := rfl
@[simp] theorem CoreState.takeIllegal_initDone (k : CoreState w) (word : CommandWord) (cause : Cause) : (k.takeIllegal word cause).initDone = k.initDone := rfl
@[simp] theorem CoreState.takeIllegal_illegal (k : CoreState w) (word : CommandWord) (cause : Cause) : (k.takeIllegal word cause).illegal = true := rfl
@[simp] theorem CoreState.takeIllegal_ecause (k : CoreState w) (word : CommandWord) (cause : Cause) : (k.takeIllegal word cause).ecause = cause.code := rfl
@[simp] theorem CoreState.takeIllegal_out (k : CoreState w) (word : CommandWord) (cause : Cause) : (k.takeIllegal word cause).out = k.out := rfl
@[simp] theorem CoreState.takeIllegal_errCmd (k : CoreState w) (word : CommandWord) (cause : Cause) : (k.takeIllegal word cause).errCmd = word := rfl
@[simp] theorem CoreState.takeIllegal_seedBuf (k : CoreState w) (word : CommandWord) (cause : Cause) : (k.takeIllegal word cause).seedBuf = k.seedBuf := rfl
@[simp] theorem CoreState.takeIllegal_outBuf (k : CoreState w) (word : CommandWord) (cause : Cause) : (k.takeIllegal word cause).outBuf = k.outBuf := rfl
@[simp] theorem CoreState.takeIllegal_gran (k : CoreState w) (word : CommandWord) (cause : Cause) : (k.takeIllegal word cause).gran = k.gran := rfl
@[simp] theorem CoreState.takeIllegal_mixed (k : CoreState w) (word : CommandWord) (cause : Cause) : (k.takeIllegal word cause).mixed = k.mixed := rfl
@[simp] theorem CoreState.takeIllegal_faults (k : CoreState w) (word : CommandWord) (cause : Cause) : (k.takeIllegal word cause).faults = ⟨cause, word⟩ :: k.faults := rfl
@[simp] theorem CoreState.takeIllegal_pending (k : CoreState w) (word : CommandWord) (cause : Cause) : (k.takeIllegal word cause).pending = k.pending := rfl
@[simp] theorem CoreState.takeIllegal_readData (k : CoreState w) (word : CommandWord) (cause : Cause) : (k.takeIllegal word cause).readData = k.readData := rfl

@[simp] theorem CoreState.streamWord_ctx (k : CoreState w) (i : Nat) : (k.streamWord i).ctx = k.ctx.advance := rfl
@[simp] theorem CoreState.streamWord_initDone (k : CoreState w) (i : Nat) : (k.streamWord i).initDone = k.initDone := rfl
@[simp] theorem CoreState.streamWord_illegal (k : CoreState w) (i : Nat) : (k.streamWord i).illegal = k.illegal := rfl
@[simp] theorem CoreState.streamWord_ecause (k : CoreState w) (i : Nat) : (k.streamWord i).ecause = k.ecause := rfl
@[simp] theorem CoreState.streamWord_out (k : CoreState w) (i : Nat) : (k.streamWord i).out = k.out := rfl
@[simp] theorem CoreState.streamWord_errCmd (k : CoreState w) (i : Nat) : (k.streamWord i).errCmd = k.errCmd := rfl
@[simp] theorem CoreState.streamWord_seedBuf (k : CoreState w) (i : Nat) : (k.streamWord i).seedBuf = k.seedBuf := rfl
@[simp] theorem CoreState.streamWord_outBuf (k : CoreState w) (i : Nat) : (k.streamWord i).outBuf = k.outBuf.write i k.ctx.currentWord := rfl
@[simp] theorem CoreState.streamWord_gran (k : CoreState w) (i : Nat) : (k.streamWord i).gran = k.gran := rfl
@[simp] theorem CoreState.streamWord_mixed (k : CoreState w) (i : Nat) : (k.streamWord i).mixed = k.mixed := rfl
@[simp] theorem CoreState.streamWord_faults (k : CoreState w) (i : Nat) : (k.streamWord i).faults = k.faults := rfl
@[simp] theorem CoreState.streamWord_pending (k : CoreState w) (i : Nat) : (k.streamWord i).pending = k.pending := rfl
@[simp] theorem CoreState.streamWord_readData (k : CoreState w) (i : Nat) : (k.streamWord i).readData = k.readData := rfl

@[simp] theorem CoreState.applyReset_ctx (cfg : Config) (k : CoreState cfg.width) (draw : Context cfg.width) :
    (CoreState.applyReset cfg k draw).ctx = if cfg.byteMode then draw else { draw with bidx := 0 } := rfl
@[simp] theorem CoreState.applyReset_initDone (cfg : Config) (k : CoreState cfg.width) (draw : Context cfg.width) :
    (CoreState.applyReset cfg k draw).initDone = false := rfl
@[simp] theorem CoreState.applyReset_illegal (cfg : Config) (k : CoreState cfg.width) (draw : Context cfg.width) :
    (CoreState.applyReset cfg k draw).illegal = false := rfl
@[simp] theorem CoreState.applyReset_ecause (cfg : Config) (k : CoreState cfg.width) (draw : Context cfg.width) :
    (CoreState.applyReset cfg k draw).ecause = 0 := rfl
@[simp] theorem CoreState.applyReset_out (cfg : Config) (k : CoreState cfg.width) (draw : Context cfg.width) :
    (CoreState.applyReset cfg k draw).out = 0 := rfl
@[simp] theorem CoreState.applyReset_errCmd (cfg : Config) (k : CoreState cfg.width) (draw : Context cfg.width) :
    (CoreState.applyReset cfg k draw).errCmd = 0 := rfl
@[simp] theorem CoreState.applyReset_seedBuf (cfg : Config) (k : CoreState cfg.width) (draw : Context cfg.width) :
    (CoreState.applyReset cfg k draw).seedBuf = k.seedBuf := rfl
@[simp] theorem CoreState.applyReset_outBuf (cfg : Config) (k : CoreState cfg.width) (draw : Context cfg.width) :
    (CoreState.applyReset cfg k draw).outBuf = k.outBuf := rfl
@[simp] theorem CoreState.applyReset_gran (cfg : Config) (k : CoreState cfg.width) (draw : Context cfg.width) :
    (CoreState.applyReset cfg k draw).gran = .none := rfl
@[simp] theorem CoreState.applyReset_mixed (cfg : Config) (k : CoreState cfg.width) (draw : Context cfg.width) :
    (CoreState.applyReset cfg k draw).mixed = false := rfl
@[simp] theorem CoreState.applyReset_faults (cfg : Config) (k : CoreState cfg.width) (draw : Context cfg.width) :
    (CoreState.applyReset cfg k draw).faults = k.faults := rfl
@[simp] theorem CoreState.applyReset_pending (cfg : Config) (k : CoreState cfg.width) (draw : Context cfg.width) :
    (CoreState.applyReset cfg k draw).pending = k.pending := rfl
@[simp] theorem CoreState.applyReset_readData (cfg : Config) (k : CoreState cfg.width) (draw : Context cfg.width) :
    (CoreState.applyReset cfg k draw).readData = k.readData := rfl

end Sys2Proof.Machine
end

