-- ==== Sys2Proof/Laws/Cursor.lean ====
section
/-!
SUPPORT. What Advance and STREAM's loop can do.
-/

namespace Sys2Proof.Machine

variable {w : Width}

theorem Context.advance_of_zero {x : Context w} (h : x.cur = 0) : x.advance = { x.shuffle with cur := 255 } := by
  rw [Context.advance, if_pos h]

theorem Context.advance_of_ne {x : Context w} (h : x.cur ≠ 0) : x.advance = { x with cur := x.cur - 1 } := by
  rw [Context.advance, if_neg h]

/-- Advance neither reads nor writes `BIDX`. -/
@[simp] theorem Context.advance_bidx (x : Context w) : x.advance.bidx = x.bidx := by
  by_cases h : x.cur = 0
  · rw [Context.advance_of_zero h]
    exact Context.shuffle_bidx x
  · rw [Context.advance_of_ne h]

/-- STREAM's loop moves the cursor once a word. -/
theorem CoreState.streamWords_ctx (n : Nat) (k : CoreState w) : (k.streamWords n).ctx = Context.advance^[n] k.ctx := by
  induction n with
  | zero => rfl
  | succ n ih => rw [Function.iterate_succ_apply', ← ih]; rfl

@[simp] theorem CoreState.streamWords_slots (n : Nat) (k : CoreState w) : (k.streamWords n).outBuf.slots = k.outBuf.slots := by
  induction n with
  | zero => rfl
  | succ n ih => exact ih

/-- STREAM's loop changes the context and the output buffer, and nothing else. -/
theorem CoreState.streamWords_eq (n : Nat) (k : CoreState w) :
    k.streamWords n = { k with ctx := (k.streamWords n).ctx, outBuf := (k.streamWords n).outBuf } := by
  induction n with
  | zero => rfl
  | succ n ih =>
    show (k.streamWords n).streamWord n = _
    rw [ih]
    rfl

/-- The slots that STREAM's loop writes: slot `i` has the word that the cursor selects after `i` moves. -/
theorem CoreState.streamWords_read (n : Nat) (k : CoreState w) (i : Nat) :
    (k.streamWords n).outBuf.read i = if i < n then some (Context.advance^[i] k.ctx).currentWord else k.outBuf.read i := by
  induction n with
  | zero => simp [CoreState.streamWords]
  | succ n ih =>
    show ((k.streamWords n).outBuf.write n (k.streamWords n).ctx.currentWord).read i = _
    by_cases h : i = n
    · subst h
      simp [CoreState.streamWords_ctx]
    · rw [OutBuffer.read_write_other _ _ h, ih]
      by_cases h2 : i < n
      · simp [h2, Nat.lt_succ_of_lt h2]
      · simp [h2, show ¬ i < n + 1 by omega]

/-- STREAM's loop keeps the output buffer's invariant while it stays inside the buffer. -/
theorem CoreState.streamWords_wf {n : Nat} {k : CoreState w} (hk : k.outBuf.wf) (hn : n ≤ k.outBuf.slots) :
    (k.streamWords n).outBuf.wf := by
  induction n with
  | zero => exact hk
  | succ n ih => exact OutBuffer.write_wf (ih (by omega)) (by simp; omega) _

/-- What STREAM does to a core (R164). -/
theorem CoreState.stream_eq (n : Nat) (k : CoreState w) :
    k.stream n = { k with
      ctx := Context.advance^[n] k.ctx
      outBuf := (k.streamWords n).outBuf
      mixed := k.mixed || (decide (k.gran = .byte) && decide (1 ≤ n))
      gran := if k.gran = .none ∧ 1 ≤ n then .word else k.gran } := by
  unfold CoreState.stream
  by_cases h : n = 0
  · subst h
    simp [CoreState.streamWords]
  · rw [if_neg h, CoreState.streamWords_eq, CoreState.streamWords_ctx]
    simp [CoreState.markWordRead, show 1 ≤ n by omega]
    rfl

/-- `n` NEXTs move the cursor `n` times. -/
theorem CoreState.nextWord_iterate_ctx (n : Nat) (k : CoreState w) :
    (CoreState.nextWord^[n] k).ctx = Context.advance^[n] k.ctx := by
  induction n with
  | zero => rfl
  | succ n ih => rw [Function.iterate_succ_apply', Function.iterate_succ_apply', ← ih]; rfl

/-- The NEXT number `n + 1` puts into `OUT` the word that the cursor selects after `n` moves. -/
theorem CoreState.nextWord_iterate_out (n : Nat) (k : CoreState w) :
    (CoreState.nextWord^[n + 1] k).out = (Context.advance^[n] k.ctx).currentWord := by
  rw [Function.iterate_succ_apply', ← CoreState.nextWord_iterate_ctx]
  rfl

/-- `n` NEXTBs move the byte cursor `n` times. -/
theorem CoreState.nextByte_iterate_ctx (n : Nat) (k : CoreState w) :
    (CoreState.nextByte^[n] k).ctx = Context.advanceByte^[n] k.ctx := by
  induction n with
  | zero => rfl
  | succ n ih => rw [Function.iterate_succ_apply', Function.iterate_succ_apply', ← ih]; rfl

end Sys2Proof.Machine
end

