-- ==== Sys2Proof/Laws/PerInstr.lean ====
section
/-!
SUPPORT. Facts about each command as syntax. Family `EncodeSelectsRow`: the word of a command selects the command's own row of the
opcode map, by its opcode and selector and by the row's match and mask.
-/

namespace Sys2Proof.Laws.EncodeSelectsRow

open Sys2Proof.Machine

/-- The command's word picks and selects the command's row (R75, R76, R78). -/
abbrev Statement (i : Instr) : Prop :=
  pickRow (opField (encode i)) (selField (encode i)) = some (instrRow i) ∧ selectsRow (encode i) (instrRow i) = true

/-- A word of given fields has them. -/
theorem fields (op : BitVec 4) (abs : Bool) (sel : BitVec 3) (idx : Index) (imm : BitVec 16) :
    opField (encodeFields op abs sel idx imm) = op ∧ selField (encodeFields op abs sel idx imm) = sel := by
  constructor <;> ext i hi <;>
    simp only [opField, selField, encodeFields, BitVec.getElem_extractLsb', BitVec.getLsbD_append, BitVec.getLsbD_ofBool]
  · simp [show i < 4 by omega]
  · simp [show ¬ (5 + i < 4) by omega, show ¬ (5 + i - 4 < 1) by omega, show 5 + i - 4 - 1 = i by omega, hi]

/-- A word selects a row when it agrees with the row's pattern on each bit of the mask. -/
theorem selects_of_bits {v : CommandWord} {r : Row}
    (h : ∀ i < 32, (v.getLsbD i && (rowBits r).mask.getLsbD i) = (rowBits r).pattern.getLsbD i) : selectsRow v r = true := by
  rw [selectsRow, beq_iff_eq]
  apply BitVec.eq_of_getLsbD_eq
  intro i hi
  rw [BitVec.getLsbD_and]
  exact h i hi

/-- The bits of a word of given fields. -/
theorem bit_of_fields (op : BitVec 4) (abs : Bool) (sel : BitVec 3) (idx : Index) (imm : BitVec 16) (i : Nat) :
    (encodeFields op abs sel idx imm).getLsbD i =
      if i < 4 then op.getLsbD i else if i = 4 then abs else if i < 8 then sel.getLsbD (i - 5)
      else if i < 16 then idx.getLsbD (i - 8) else imm.getLsbD (i - 16) := by
  simp only [encodeFields, BitVec.getLsbD_append, BitVec.getLsbD_ofBool, Nat.sub_sub]
  by_cases h1 : i < 4
  · simp [h1]
  by_cases h2 : i = 4
  · simp [h2]
  by_cases h3 : i < 8
  · simp [h1, h2, h3, show ¬ (i - 4 < 1) by omega, show i - 5 < 3 by omega]
  by_cases h4 : i < 16
  · simp [h1, h2, h3, h4, show ¬ (i - 4 < 1) by omega, show ¬ (i - 5 < 3) by omega, show i - 8 < 8 by omega]
  · simp [h1, h2, h3, h4, show ¬ (i - 4 < 1) by omega, show ¬ (i - 5 < 3) by omega, show ¬ (i - 8 < 8) by omega]

theorem init (abs : Bool) (len : BitVec 16) : Statement (.init abs len) := by
  refine ⟨?_, selects_of_bits fun i hi => ?_⟩
  · simp [encode, instrRow, (fields _ _ _ _ _).1, pickRow]
  · simp only [encode, bit_of_fields, rowBits, instrRow]
    interval_cases i <;> simp

theorem next : Statement .next := by decide

theorem stream (abs : Bool) (count : BitVec 16) : Statement (.stream abs count) := by
  refine ⟨?_, selects_of_bits fun i hi => ?_⟩
  · simp [encode, instrRow, (fields _ _ _ _ _).1, pickRow]
  · simp only [encode, bit_of_fields, rowBits, instrRow]
    interval_cases i <;> simp

theorem nextb : Statement .nextb := by decide

theorem erase : Statement .erase := by decide

theorem peekRes (idx : Index) : Statement (.peekRes idx) := by
  refine ⟨?_, selects_of_bits fun i hi => ?_⟩
  · simp [encode, instrRow, (fields _ _ _ _ _).1, (fields _ _ _ _ _).2, pickRow]
  · simp only [encode, bit_of_fields, rowBits, instrRow]
    interval_cases i <;> simp

theorem peekMem (idx : Index) : Statement (.peekMem idx) := by
  refine ⟨?_, selects_of_bits fun i hi => ?_⟩
  · simp [encode, instrRow, (fields _ _ _ _ _).1, (fields _ _ _ _ _).2, pickRow]
  · simp only [encode, bit_of_fields, rowBits, instrRow]
    interval_cases i <;> simp

theorem peekA : Statement .peekA := by decide

theorem peekB : Statement .peekB := by decide

theorem peekC : Statement .peekC := by decide

theorem peekCur : Statement .peekCur := by decide

theorem peekBidx : Statement .peekBidx := by decide

end Sys2Proof.Laws.EncodeSelectsRow
end

