-- ==== Sys2Proof/Laws/Decode.lean ====
section
/-!
SUPPORT. What an answer of the decoder says, and the fields of an encoded command.
-/

namespace Sys2Proof

/-- Byte mode is never present with 64-bit words. -/
theorem Config.width_of_byteMode {cfg : Config} (h : cfg.byteMode = true) : cfg.width = .w32 := by
  obtain ⟨v, p, b, o, a⟩ := cfg
  cases v <;> simp_all [Config.byteMode, Config.width]

/-- A word that decodes picks a row, selects it, and passes the checks on the configuration. -/
theorem decode_ok {cfg : Config} {v : CommandWord} {i : Instr} (h : decode cfg v = .ok i) :
    ∃ r, pickRow (opField v) (selField v) = some r ∧ selectsRow v r = true ∧ i = rowInstr v r ∧
      (opField v = 4 → cfg.byteMode = true) ∧ (opField v = 6 → cfg.peekEn = true) ∧
      (opField v = 6 → selField v = 6 → cfg.byteMode = true) := by
  unfold decode at h
  simp only at h
  split at h
  · cases h
  split at h
  · cases h
  split at h
  · cases h
  split at h
  · cases h
  rename_i h1 h2 h3 h4
  split at h
  · cases h
  · rename_i r hr
    split at h
    · rename_i hs
      cases h
      refine ⟨r, hr, hs, rfl, fun a => ?_, fun a => ?_, fun a b => ?_⟩
      · simpa [a] using h2
      · simpa [a] using h3
      · simpa [a, b] using h4
    · cases h

/-- The row that is picked for opcode 4, for opcode 6 and for its selector 6, and the opcodes that pick a row at all. -/
theorem pickRow_facts :
    (∀ op sel r, pickRow op sel = some r → ¬(op = 0 ∨ 7 ≤ op)) ∧
    (∀ op sel, pickRow op sel = some .nextb ↔ op = 4) ∧
    (∀ op sel, pickRow op sel = some .peekBidx ↔ op = 6 ∧ sel = 6) ∧
    (∀ op sel r, pickRow op sel = some r →
      (op = 6 ↔ r = .peekRes ∨ r = .peekMem ∨ r = .peekA ∨ r = .peekB ∨ r = .peekC ∨ r = .peekCur ∨ r = .peekBidx)) := by
  decide

open Laws.EncodeSelectsRow in
/-- The five fields of a word made of five fields. -/
theorem fields_encodeFields (op : BitVec 4) (abs : Bool) (sel : BitVec 3) (idx : Index) (imm : BitVec 16) :
    opField (encodeFields op abs sel idx imm) = op ∧ absField (encodeFields op abs sel idx imm) = abs ∧
    selField (encodeFields op abs sel idx imm) = sel ∧ idxField (encodeFields op abs sel idx imm) = idx ∧
    immField (encodeFields op abs sel idx imm) = imm := by
  refine ⟨(fields _ _ _ _ _).1, ?_, (fields _ _ _ _ _).2, ?_, ?_⟩
  · rw [absField, bit_of_fields]
    simp
  · apply BitVec.eq_of_getLsbD_eq
    intro j hj
    simp only [idxField, BitVec.getLsbD_extractLsb', bit_of_fields]
    simp [hj, show ¬ (8 + j < 4) by omega, show ¬ (8 + j = 4) by omega, show (8 + j < 16) by omega]
  · apply BitVec.eq_of_getLsbD_eq
    intro j hj
    simp only [immField, BitVec.getLsbD_extractLsb', bit_of_fields]
    simp [hj, show ¬ (16 + j < 4) by omega, show ¬ (16 + j = 4) by omega, show ¬ (16 + j < 8) by omega]

open Machine in
/-- The operands that a command's word holds are the command's. -/
theorem rowInstr_encode (i : Instr) : rowInstr (encode i) (instrRow i) = i := by
  cases i <;> simp [rowInstr, instrRow, encode, fields_encodeFields]

open Laws.EncodeSelectsRow in
/-- A word that selects a row is the word of the row's command. -/
theorem encode_rowInstr {v : CommandWord} {r : Row} (h : selectsRow v r = true) : encode (rowInstr v r) = v := by
  rw [selectsRow, beq_iff_eq] at h
  apply BitVec.eq_of_getLsbD_eq
  intro i hi
  have hb := congrArg (fun x => BitVec.getLsbD x i) h
  simp only [BitVec.getLsbD_and] at hb
  cases r <;> simp only [rowInstr, encode, bit_of_fields, absField, immField, idxField, BitVec.getLsbD_extractLsb', rowBits] at hb ⊢ <;>
    interval_cases i <;> simp_all

open Machine Laws.EncodeSelectsRow in
/-- A word selects a row when it is the word of the row's command with the word's own operands. -/
theorem selectsRow_iff (v : CommandWord) (r : Row) : selectsRow v r = true ↔ v = encode (rowInstr v r) := by
  constructor
  · exact fun h => (encode_rowInstr h).symm
  · intro h
    have row : instrRow (rowInstr v r) = r := by cases r <;> rfl
    have sel : ∀ i : Instr, selectsRow (encode i) (instrRow i) = true := by
      intro i
      cases i
      case init abs len => exact (init abs len).2
      case stream abs count => exact (stream abs count).2
      case peekRes idx => exact (peekRes idx).2
      case peekMem idx => exact (peekMem idx).2
      all_goals decide
    have := sel (rowInstr v r)
    rwa [← h, row] at this

open Laws.EncodeSelectsRow in
/-- A word is the word of its own five fields. -/
theorem encodeFields_fields (v : CommandWord) :
    encodeFields (opField v) (absField v) (selField v) (idxField v) (immField v) = v := by
  apply BitVec.eq_of_getLsbD_eq
  intro i hi
  rw [bit_of_fields]
  simp only [opField, absField, selField, idxField, immField, BitVec.getLsbD_extractLsb']
  interval_cases i <;> simp

end Sys2Proof
end

