-- ==== Sys2Proof/Laws/Exec.lean ====
section
/-!
SUPPORT. The shared shapes of a command's outcome, and what can come out of `exec` and `step` at all.
-/

namespace Sys2Proof.Machine

/-- A command that the configuration has runs. -/
theorem State.runIfPresent_of_wf {s : State} {i : Instr} {f : CoreState s.config.width → CoreState s.config.width}
    (h : i.wellFormed s.config = true) : s.runIfPresent i f = .next (s.modify f) := by
  simp [State.runIfPresent, h]

/-- A command that the configuration lacks raises the exception. -/
theorem State.runIfPresent_of_not_wf {s : State} {i : Instr} {f : CoreState s.config.width → CoreState s.config.width}
    (h : i.wellFormed s.config = false) :
    s.runIfPresent i f = .next (s.takeIllegalCommand (encode i) .featureAbsent) := by
  simp [State.runIfPresent, h]

/-- What `exec` answers when it answers a next state: the exception for a command that the configuration lacks, or the command's
own effect on the core. -/
theorem exec_cases {i : Instr} {s t : State} (h : exec i s = .next t) :
    (i.wellFormed s.config = false ∧ t = s.takeIllegalCommand (encode i) .featureAbsent) ∨
    (i.wellFormed s.config = true ∧
      ((∃ abs len seed, i = .init abs len ∧ seedBytes s.core.seedBuf (effectiveLength abs len) = some seed ∧
          t = s.modify fun k => k.initialise s.config.byteMode seed) ∨
       (i = .next ∧ t = s.modify CoreState.nextWord) ∨
       (∃ count, i = .stream true count ∧ t = s) ∨
       (∃ count, i = .stream false count ∧ count.toNat ≤ s.core.outBuf.slots ∧
          t = s.modify fun k => k.stream count.toNat) ∨
       (i = .nextb ∧ t = s.modify CoreState.nextByte) ∨
       (i = .erase ∧ t = s.modify CoreState.erase) ∨
       (∃ v, peekedValue s.core.ctx i = some v ∧ t = s.modify fun k => k.setOut v))) := by
  have present : ∀ (j : Instr) (f : CoreState s.config.width → CoreState s.config.width),
      s.runIfPresent j f = .next t →
      (j.wellFormed s.config = false ∧ t = s.takeIllegalCommand (encode j) .featureAbsent) ∨
      (j.wellFormed s.config = true ∧ t = s.modify f) := by
    intro j f hj
    cases hw : j.wellFormed s.config
    · rw [State.runIfPresent_of_not_wf hw] at hj; exact .inl ⟨rfl, by cases hj; rfl⟩
    · rw [State.runIfPresent_of_wf hw] at hj; exact .inr ⟨rfl, by cases hj; rfl⟩
  cases i with
  | init abs len =>
    simp only [exec, execInit] at h
    split at h
    · rename_i seed hs
      cases h
      exact .inr ⟨rfl, .inl ⟨abs, len, seed, rfl, hs, rfl⟩⟩
    · cases h
  | next => cases h; exact .inr ⟨rfl, .inr (.inl ⟨rfl, rfl⟩)⟩
  | stream abs count =>
    simp only [exec, execStream] at h
    cases abs with
    | true => cases h; exact .inr ⟨rfl, .inr (.inr (.inl ⟨count, rfl, rfl⟩))⟩
    | false =>
      by_cases hc : count.toNat ≤ s.core.outBuf.slots
      · simp only [hc, if_true, Bool.false_eq_true, if_false] at h
        cases h
        exact .inr ⟨rfl, .inr (.inr (.inr (.inl ⟨count, rfl, hc, rfl⟩)))⟩
      · simp [hc] at h
  | nextb =>
    rcases present _ _ h with h | ⟨hw, ht⟩
    · exact .inl h
    · exact .inr ⟨hw, .inr (.inr (.inr (.inr (.inl ⟨rfl, ht⟩))))⟩
  | erase => cases h; exact .inr ⟨rfl, .inr (.inr (.inr (.inr (.inr (.inl ⟨rfl, rfl⟩)))))⟩
  | peekRes idx =>
    exact (present _ _ h).imp id fun ⟨hw, ht⟩ => ⟨hw, .inr (.inr (.inr (.inr (.inr (.inr ⟨_, rfl, ht⟩)))))⟩
  | peekMem idx =>
    exact (present _ _ h).imp id fun ⟨hw, ht⟩ => ⟨hw, .inr (.inr (.inr (.inr (.inr (.inr ⟨_, rfl, ht⟩)))))⟩
  | peekA => exact (present _ _ h).imp id fun ⟨hw, ht⟩ => ⟨hw, .inr (.inr (.inr (.inr (.inr (.inr ⟨_, rfl, ht⟩)))))⟩
  | peekB => exact (present _ _ h).imp id fun ⟨hw, ht⟩ => ⟨hw, .inr (.inr (.inr (.inr (.inr (.inr ⟨_, rfl, ht⟩)))))⟩
  | peekC => exact (present _ _ h).imp id fun ⟨hw, ht⟩ => ⟨hw, .inr (.inr (.inr (.inr (.inr (.inr ⟨_, rfl, ht⟩)))))⟩
  | peekCur => exact (present _ _ h).imp id fun ⟨hw, ht⟩ => ⟨hw, .inr (.inr (.inr (.inr (.inr (.inr ⟨_, rfl, ht⟩)))))⟩
  | peekBidx => exact (present _ _ h).imp id fun ⟨hw, ht⟩ => ⟨hw, .inr (.inr (.inr (.inr (.inr (.inr ⟨_, rfl, ht⟩)))))⟩

/-- What `step` answers when it answers a next state: the idle core, a command word that decodes, a command word that does not, or
a host action that is no command. -/
theorem step_cases {s t : State} (h : step s = .next t) :
    (s.core.pending = [] ∧ t = s) ∨
    ∃ act rest, s.core.pending = act :: rest ∧
      ((∃ word k i, hostAct s.config act { s.core with pending := rest } = .command word k ∧
          decode s.config word = .ok i ∧ exec i { s with core := k } = .next t) ∨
       (∃ word k cause, hostAct s.config act { s.core with pending := rest } = .command word k ∧
          decode s.config word = .error cause ∧
          t = State.takeIllegalCommand { s with core := k } word cause) ∨
       (∃ k, hostAct s.config act { s.core with pending := rest } = .done k ∧ t = { s with core := k })) := by
  simp only [step] at h
  cases hp : s.core.pending with
  | nil =>
    simp only [fetch, hp] at h
    cases h
    exact .inl ⟨rfl, rfl⟩
  | cons act rest =>
    simp only [fetch, hp] at h
    refine .inr ⟨act, rest, rfl, ?_⟩
    cases ha : hostAct s.config act { s.core with pending := rest } with
    | idle => simp only [hostAct, hostWrite, hostRead] at ha; split at ha <;> (try split at ha) <;> cases ha
    | command word k =>
      simp only [ha, submit] at h
      cases hd : decode s.config word with
      | ok i => rw [hd] at h; exact .inl ⟨word, k, i, rfl, hd, h⟩
      | error cause => rw [hd] at h; cases h; exact .inr (.inl ⟨word, k, cause, rfl, hd, rfl⟩)
    | done k => simp only [ha] at h; cases h; exact .inr (.inr ⟨k, rfl, rfl⟩)
    | refused r => simp only [ha] at h; cases h

/-- A host action that submits a command word leaves the core as it was. -/
theorem hostAct_command {cfg : Config} {act : HostAction cfg.width} {k l : CoreState cfg.width} {word : CommandWord}
    (h : hostAct cfg act k = .command word l) : l = k ∧ ∃ addr, act = .write addr (.d32 word) := by
  cases act with
  | write addr data =>
    simp only [hostAct, hostWrite] at h
    split at h <;> cases h
    exact ⟨rfl, addr, rfl⟩
  | read addr size =>
    simp only [hostAct, hostRead] at h
    split at h <;> cases h
  | bindSeed bytes => cases h
  | bindOut slots contents => cases h
  | reset draw => cases h

/-- A word at the register block's base goes to `CMD` (R60). -/
theorem portAt_base (cfg : Config) : portAt cfg cfg.regBase .b32 = .ok .cmd := by
  simp [portAt, registerBlockSize, portAtOffset]

/-- Only the block's base reaches `CMD` (R60). -/
theorem portAt_cmd {cfg : Config} {addr : Nat} {size : BusSize} (h : portAt cfg addr size = .ok .cmd) : addr = cfg.regBase := by
  unfold portAt at h
  split at h
  · cases h
  split at h
  · cases h
  split at h
  · rename_i p hp
    cases h
    unfold portAtOffset at hp
    split at hp
    · split at hp
      · omega
      all_goals (repeat' split at hp) <;> cases hp
    · (repeat' split at hp) <;> cases hp
  · cases h

/-- What a step does with a waiting command word. -/
theorem step_of_commandWaiting {s : State} {v : CommandWord} {rest : List (HostAction s.config.width)}
    (h : s.commandWaiting v rest) : step s = submit v (s.withPending rest) := by
  unfold State.commandWaiting at h
  simp only [step, fetch, h, hostAct, hostWrite, busDataSize, portAt_base]
  rfl

/-- STREAM on a buffer that has the slots. -/
theorem exec_stream_of_slots {count : BitVec 16} {s : State} (h : count.toNat ≤ s.core.outBuf.slots) :
    exec (.stream false count) s = .next { s with core := s.core.stream count.toNat } := by
  simp only [exec, execStream, h, if_true, Bool.false_eq_true, if_false]
  rfl

/-- NEXTB where it is present. -/
theorem exec_nextb_of_byteMode {s : State} (h : s.config.byteMode = true) :
    exec .nextb s = .next { s with core := s.core.nextByte } := State.runIfPresent_of_wf h

/-- `n` NEXTs. -/
theorem execTimes_next (n : Nat) (s : State) :
    execTimes .next n s = .next { s with core := CoreState.nextWord^[n] s.core } := by
  induction n with
  | zero => rfl
  | succ n ih => rw [execTimes, ih, Function.iterate_succ_apply']; rfl

/-- `n` NEXTBs. -/
theorem execTimes_nextb (n : Nat) {s : State} (h : s.config.byteMode = true) :
    execTimes .nextb n s = .next { s with core := CoreState.nextByte^[n] s.core } := by
  induction n with
  | zero => rfl
  | succ n ih =>
    rw [execTimes, ih, Function.iterate_succ_apply']
    exact exec_nextb_of_byteMode (s := { s with core := _ }) h

/-- No command writes the configuration. -/
theorem exec_config {i : Instr} {s t : State} (h : exec i s = .next t) : t.config = s.config := by
  rcases exec_cases h with
    ⟨_, rfl⟩ | ⟨_, ⟨_, _, _, _, _, rfl⟩ | ⟨_, rfl⟩ | ⟨_, _, rfl⟩ | ⟨_, _, _, rfl⟩ | ⟨_, rfl⟩ | ⟨_, rfl⟩ | ⟨_, _, rfl⟩⟩ <;> rfl

/-- The machine on a platform with another `OUTBUF_ALIGN`. -/
def State.withOutBufAlign (s : State) (align : Nat) : State :=
  { config := { s.config with outBufAlign := align }, core := s.core }

/-- An outcome, its next state mapped. -/
def mapNext {σ φ ρ : Type} (f : σ → σ) : Host.Outcome σ φ ρ → Host.Outcome σ φ ρ
  | .next s => .next (f s)
  | .fault r => .fault r
  | .refused r => .refused r

/-- No host action depends on `OUTBUF_ALIGN`. -/
theorem hostAct_outBufAlign (cfg : Config) (align : Nat) (act : HostAction cfg.width) (k : CoreState cfg.width) :
    hostAct { cfg with outBufAlign := align } act k = hostAct cfg act k := by
  cases act <;> rfl

/-- The host action taken next does not depend on `OUTBUF_ALIGN`. -/
theorem fetch_outBufAlign (cfg : Config) (align : Nat) (k : CoreState cfg.width) :
    fetch { cfg with outBufAlign := align } k = fetch cfg k := by
  unfold fetch
  cases k.pending with
  | nil => rfl
  | cons act rest => exact hostAct_outBufAlign cfg align act _

/-- Whether a command is present does not depend on `OUTBUF_ALIGN`. -/
theorem State.runIfPresent_outBufAlign (s : State) (i : Instr) (f : CoreState s.config.width → CoreState s.config.width)
    (align : Nat) :
    (s.withOutBufAlign align).runIfPresent i f = mapNext (State.withOutBufAlign · align) (s.runIfPresent i f) := by
  change (if i.wellFormed s.config then _ else _) = _
  unfold State.runIfPresent
  cases i.wellFormed s.config <;> rfl

/-- No command depends on `OUTBUF_ALIGN` (R58). -/
theorem exec_outBufAlign (i : Instr) (s : State) (align : Nat) :
    exec i (s.withOutBufAlign align) = mapNext (State.withOutBufAlign · align) (exec i s) := by
  cases i with
  | init abs len =>
    have hs : (s.withOutBufAlign align).core.seedBuf = s.core.seedBuf := rfl
    simp only [exec, execInit, hs]
    cases seedBytes s.core.seedBuf (effectiveLength abs len) <;> rfl
  | stream abs count =>
    cases abs with
    | true => rfl
    | false =>
      change (if count.toNat ≤ s.core.outBuf.slots then _ else _) =
        mapNext _ (if count.toNat ≤ s.core.outBuf.slots then _ else _)
      split <;> rfl
  | next => rfl
  | erase => rfl
  | _ => exact State.runIfPresent_outBufAlign s _ _ align

/-- No step depends on `OUTBUF_ALIGN`: the core addresses output slots by index (R58). -/
theorem step_outBufAlign (s : State) (align : Nat) :
    step (s.withOutBufAlign align) = mapNext (State.withOutBufAlign · align) (step s) := by
  have hf : fetch (s.withOutBufAlign align).config (s.withOutBufAlign align).core = fetch s.config s.core :=
    fetch_outBufAlign s.config align s.core
  unfold step
  rw [hf]
  cases fetch s.config s.core with
  | command word k =>
    have hd : decode (s.withOutBufAlign align).config word = decode s.config word := rfl
    simp only [submit, hd]
    cases decode s.config word with
    | ok i => exact exec_outBufAlign i { s with core := k } align
    | error cause => rfl
  | _ => rfl

/-- Where the platform's alignment is a multiple of the slot width, every address that it allows for a slot is one. -/
theorem slot_aligned_of_slotsAligned {cfg : Config} (h : cfg.slotsAligned = true) {addr : Nat} (ha : cfg.outBufAlign ∣ addr) :
    cfg.width.bits / 8 ∣ addr :=
  (Nat.dvd_of_mod_eq_zero (by simpa [Config.slotsAligned] using h)).trans ha

end Sys2Proof.Machine
end

