-- ==== Sys2Proof/Laws/Scrambler.lean ====
section
/-!
SUPPORT. The blocks of an array: a block that is stored reads back, and the other 31 blocks keep their words.
-/

namespace Sys2Proof.Machine

variable {w : Width}

theorem blockIndex_ne {j l i m : Nat} (hj : j < 32) (hl : l < 32) (hi : i < 8) (hm : m < 8) (h : ¬(j = l ∧ i = m)) :
    blockIndex j i ≠ blockIndex l m := by
  intro e
  have := congrArg BitVec.toNat e
  simp only [blockIndex, BitVec.toNat_ofNat] at this
  omega

/-- An element outside the eight stored is left alone. -/
theorem read_storeBlock_other {v : Bank w} {j : Nat} {k : KRegs w} {x : Index} (h : ∀ i < 8, x ≠ blockIndex j i) :
    (storeBlock v j k).read x = v.read x := by
  simp [storeBlock, Bank.read_write, h 0, h 1, h 2, h 3, h 4, h 5, h 6, h 7]

/-- A stored block reads back. -/
theorem blockOf_storeBlock {j : Nat} (hj : j < 32) (v : Bank w) (k : KRegs w) : blockOf (storeBlock v j k) j = k := by
  have ne : ∀ {i m : Nat}, i < 8 → m < 8 → i ≠ m → blockIndex j i ≠ blockIndex j m := fun hi hm h =>
    blockIndex_ne hj hj hi hm (fun e => h e.2)
  cases k
  simp [blockOf, storeBlock, Bank.read_write, ne]

/-- A store leaves the other blocks. -/
theorem blockOf_storeBlock_other {j l : Nat} (hj : j < 32) (hl : l < 32) (h : l ≠ j) (v : Bank w) (k : KRegs w) :
    blockOf (storeBlock v j k) l = blockOf v l := by
  have ne : ∀ m < 8, ∀ i < 8, blockIndex l m ≠ blockIndex j i := fun m hm i hi =>
    blockIndex_ne hl hj hm hi (fun e => h e.1)
  simp [blockOf, read_storeBlock_other (ne _ _)]

/-- Adding a block is adding its eight words. -/
theorem KRegs.addBlock_eq (k : KRegs w) (v : Bank w) (j : Nat) : k.addBlock v j = k.add (blockOf v j) := rfl

/-- Two arrays with the same blocks are the same array. -/
theorem Bank.ext_blocks {u v : Bank w} (h : ∀ j < 32, blockOf u j = blockOf v j) : u = v := by
  apply Bank.ext
  intro x
  have hx : x.toNat < 256 := x.isLt
  have hb := h (x.toNat / 8) (by omega)
  have hi : x = blockIndex (x.toNat / 8) (x.toNat % 8) := by
    apply BitVec.eq_of_toNat_eq
    simp only [blockIndex, BitVec.toNat_ofNat]
    omega
  have hm : x.toNat % 8 < 8 := Nat.mod_lt _ (by omega)
  simp only [blockOf, KRegs.mk.injEq] at hb
  rw [hi]
  generalize x.toNat % 8 = m at hm ⊢
  obtain ⟨h0, h1, h2, h3, h4, h5, h6, h7⟩ := hb
  match m, hm with
  | 0, _ => exact h0
  | 1, _ => exact h1
  | 2, _ => exact h2
  | 3, _ => exact h3
  | 4, _ => exact h4
  | 5, _ => exact h5
  | 6, _ => exact h6
  | 7, _ => exact h7
  | _ + 8, h => omega

theorem Scramble.blocks1_zero (res : Bank w) (s : Scramble w) : s.blocks1 res 0 = s := rfl

theorem Scramble.blocks1_succ (res : Bank w) (n : Nat) (s : Scramble w) :
    s.blocks1 res (n + 1) = (s.blocks1 res n).block1 res n := rfl

theorem Scramble.blocks2_zero (s : Scramble w) : s.blocks2 0 = s := rfl

theorem Scramble.blocks2_succ (n : Nat) (s : Scramble w) : s.blocks2 (n + 1) = (s.blocks2 n).block2 n := rfl

/-- `MEM` after the scramble. -/
theorem Context.keyScramble_mem (x : Context w) :
    x.keyScramble.mem = (((⟨goldenMixed w, x.mem⟩ : Scramble w).blocks1 x.res 32).blocks2 32).mem := by rw [Context.keyScramble]

@[simp] theorem Context.keyScramble_res (x : Context w) : x.keyScramble.res = x.res := by rw [Context.keyScramble]
@[simp] theorem Context.keyScramble_a (x : Context w) : x.keyScramble.a = x.a := by rw [Context.keyScramble]
@[simp] theorem Context.keyScramble_b (x : Context w) : x.keyScramble.b = x.b := by rw [Context.keyScramble]
@[simp] theorem Context.keyScramble_c (x : Context w) : x.keyScramble.c = x.c := by rw [Context.keyScramble]
@[simp] theorem Context.keyScramble_cur (x : Context w) : x.keyScramble.cur = x.cur := by rw [Context.keyScramble]
@[simp] theorem Context.keyScramble_bidx (x : Context w) : x.keyScramble.bidx = x.bidx := by rw [Context.keyScramble]

end Sys2Proof.Machine
end

