-- ==== Sys2Proof/Laws/Init.lean ====
section
/-!
SUPPORT. The registers that INIT leaves, said without running the scramble or the Shuffle.
-/

namespace Sys2Proof.Machine

variable {w : Width}

/-- The context that INIT's Shuffle starts from. -/
def Context.keyed (seed : List Byte) (x : Context w) : Context w :=
  (Context.clearAccumulators { x with res := seedLoad w seed }).keyScramble

/-- INIT's context is the shuffled keyed context with the cursor set (R101). -/
theorem Context.initialise_eq (byteMode : Bool) (seed : List Byte) (x : Context w) :
    x.initialise byteMode seed =
      { (x.keyed seed).shuffle with cur := 255, bidx := if byteMode then 0 else (x.keyed seed).shuffle.bidx } := by
  unfold Context.initialise Context.keyed
  dsimp only
  generalize (Context.clearAccumulators _).keyScramble.shuffle = y
  cases byteMode <;> rfl

@[simp] theorem Context.keyed_res (seed : List Byte) (x : Context w) : (x.keyed seed).res = seedLoad w seed := by
  rw [Context.keyed, Context.keyScramble_res, Context.clearAccumulators]
@[simp] theorem Context.keyed_a (seed : List Byte) (x : Context w) : (x.keyed seed).a = 0 := by
  rw [Context.keyed, Context.keyScramble_a, Context.clearAccumulators]
@[simp] theorem Context.keyed_b (seed : List Byte) (x : Context w) : (x.keyed seed).b = 0 := by
  rw [Context.keyed, Context.keyScramble_b, Context.clearAccumulators]
@[simp] theorem Context.keyed_c (seed : List Byte) (x : Context w) : (x.keyed seed).c = 0 := by
  rw [Context.keyed, Context.keyScramble_c, Context.clearAccumulators]
@[simp] theorem Context.keyed_cur (seed : List Byte) (x : Context w) : (x.keyed seed).cur = x.cur := by
  rw [Context.keyed, Context.keyScramble_cur, Context.clearAccumulators]
@[simp] theorem Context.keyed_bidx (seed : List Byte) (x : Context w) : (x.keyed seed).bidx = x.bidx := by
  rw [Context.keyed, Context.keyScramble_bidx, Context.clearAccumulators]

@[simp] theorem Context.initialise_cur (byteMode : Bool) (seed : List Byte) (x : Context w) :
    (x.initialise byteMode seed).cur = 255 := by rw [Context.initialise_eq]
@[simp] theorem Context.initialise_c (byteMode : Bool) (seed : List Byte) (x : Context w) :
    (x.initialise byteMode seed).c = (x.keyed seed).shuffle.c := by rw [Context.initialise_eq]
@[simp] theorem Context.initialise_b (byteMode : Bool) (seed : List Byte) (x : Context w) :
    (x.initialise byteMode seed).b = (x.keyed seed).shuffle.b := by rw [Context.initialise_eq]
@[simp] theorem Context.initialise_res (byteMode : Bool) (seed : List Byte) (x : Context w) :
    (x.initialise byteMode seed).res = (x.keyed seed).shuffle.res := by rw [Context.initialise_eq]
@[simp] theorem Context.initialise_bidx (byteMode : Bool) (seed : List Byte) (x : Context w) :
    (x.initialise byteMode seed).bidx = if byteMode then 0 else x.bidx := by
  rw [Context.initialise_eq, Context.shuffle_bidx, Context.keyed_bidx]

/-- `execInit` on a buffer that holds the seed. -/
theorem execInit_of_seed {abs : Bool} {len : BitVec 16} {s : State} {seed : List Byte}
    (h : seedBytes s.core.seedBuf (effectiveLength abs len) = some seed) :
    execInit abs len s = .next { s with core := { s.core with
      ctx := s.core.ctx.initialise s.config.byteMode seed, initDone := true, gran := .none, mixed := false } } := by
  rw [execInit, h]
  rfl

end Sys2Proof.Machine
end

