-- ==== Sys2Proof/Tests/Slice0.lean ====
section
/-!
SUPPORT. The package's own tests: well-formedness, decoding of words written out from the spec's fields, one-step tests with the values of
95_test_vectors.md, and for every statement with hypotheses a concrete state and operands that meet them.
-/

namespace Sys2Proof.Tests

open Sys2Proof.Machine

/-! ## Small states -/

/-- Byte mode absent. -/
def cfg32 : Config := { Config.full with variant := .isaac32 }

/-- 64-bit words. -/
def cfg64 : Config := { Config.full with variant := .isaac64 }

/-- PEEK absent. -/
def cfgNoPeek : Config := { cfg32 with peekEn := false }

/-- 64-bit words, the high half of `OUT` first, and a block that does not start at 0. -/
def cfgHigh : Config := { cfg64 with outHalfOrder := .highFirst, regBase := 0x1000 }

/-- A context that holds one word in `RES`, at the cursor. -/
def ctxOf (w : Width) (cur : Index) (bidx : BitVec 2) (word : Word w) : Context w :=
  { Context.zero w with res := (Context.zero w).res.write cur word, cur := cur, bidx := bidx }

/-- A core with that context, a three-byte seed buffer, a four-slot output buffer, and the host's next actions. -/
def coreOf (cfg : Config) (x : Context cfg.width) (acts : List (HostAction cfg.width)) : State :=
  { config := cfg
    core := { CoreState.atReset cfg x with
      pending := acts, seedBuf := seedBufferOf [1, 2, 3], outBuf := outBufferOf 4 [7] } }

/-- A command word waiting at a core with the zero context. -/
def cmd (cfg : Config) (v : CommandWord) : State :=
  coreOf cfg (Context.zero cfg.width) [.write cfg.regBase (.d32 v)]

/-- The outcome is a next state with this property. -/
def nextIs (o : Host.Outcome State Fault Refusal) (p : State → Bool) : Bool :=
  match o with
  | .next t => p t
  | .fault _ => false
  | .refused _ => false

/-- The outcome is this fault. -/
def faultIs (o : Host.Outcome State Fault Refusal) (f : Fault) : Bool :=
  match o with
  | .next _ => false
  | .fault r => r == f
  | .refused _ => false

/-- The outcome is this refusal. -/
def refusalIs (o : Host.Outcome State Fault Refusal) (f : Refusal) : Bool :=
  match o with
  | .next _ => false
  | .fault _ => false
  | .refused r => r == f

/-- The decoder gives this command. -/
def decodesTo (cfg : Config) (v : CommandWord) (i : Instr) : Bool :=
  match decode cfg v with
  | .ok j => j == i
  | .error _ => false

/-- The decoder gives this cause. -/
def illegalAs (cfg : Config) (v : CommandWord) (c : Cause) : Bool :=
  match decode cfg v with
  | .ok _ => false
  | .error d => d == c

/-! ## Well-formedness: an ill-formed term for each check -/

theorem test_nextb_needs_byte_mode : Instr.wellFormed cfg32 .nextb = false ∧ Instr.wellFormed cfg64 .nextb = false := by decide

theorem test_peeks_need_peek :
    Instr.wellFormed cfgNoPeek (.peekRes 0) = false ∧ Instr.wellFormed cfgNoPeek (.peekMem 0) = false ∧
    Instr.wellFormed cfgNoPeek .peekA = false ∧ Instr.wellFormed cfgNoPeek .peekB = false ∧
    Instr.wellFormed cfgNoPeek .peekC = false ∧ Instr.wellFormed cfgNoPeek .peekCur = false ∧
    Instr.wellFormed { Config.full with peekEn := false } .peekBidx = false := by decide

theorem test_peek_bidx_needs_byte_mode : Instr.wellFormed cfg32 .peekBidx = false ∧ Instr.wellFormed cfg64 .peekBidx = false := by
  decide

/-! ## Decoding: words written out from R71, fields IMM16, IDX, SEL, ABS, OP (95_test_vectors.md D1, D2) -/

theorem test_decode_init : decodesTo Config.full 0b0000000000001000_00000000_000_0_0001#32 (.init false 8) = true := by decide
theorem test_decode_init_abs : decodesTo Config.full 0b0000000011111111_00000000_000_1_0001#32 (.init true 255) = true := by decide
theorem test_decode_next : decodesTo Config.full 0b0000000000000000_00000000_000_0_0010#32 .next = true := by decide
theorem test_decode_stream : decodesTo Config.full 0b0000000100101100_00000000_000_0_0011#32 (.stream false 300) = true := by decide
theorem test_decode_stream_abs : decodesTo Config.full 0b0000000000000101_00000000_000_1_0011#32 (.stream true 5) = true := by decide
theorem test_decode_nextb : decodesTo Config.full 0b0000000000000000_00000000_000_0_0100#32 .nextb = true := by decide
theorem test_decode_erase : decodesTo Config.full 0b0000000000000000_00000000_000_0_0101#32 .erase = true := by decide
theorem test_decode_peek_res : decodesTo Config.full 0b0000000000000000_11111111_000_0_0110#32 (.peekRes 255) = true := by decide
theorem test_decode_peek_mem : decodesTo Config.full 0b0000000000000000_00000011_001_0_0110#32 (.peekMem 3) = true := by decide
theorem test_decode_peek_a : decodesTo Config.full 0b0000000000000000_00000000_010_0_0110#32 .peekA = true := by decide
theorem test_decode_peek_b : decodesTo Config.full 0b0000000000000000_00000000_011_0_0110#32 .peekB = true := by decide
theorem test_decode_peek_c : decodesTo Config.full 0b0000000000000000_00000000_100_0_0110#32 .peekC = true := by decide
theorem test_decode_peek_cur : decodesTo Config.full 0b0000000000000000_00000000_101_0_0110#32 .peekCur = true := by decide
theorem test_decode_peek_bidx : decodesTo Config.full 0b0000000000000000_00000000_110_0_0110#32 .peekBidx = true := by decide

theorem test_decode_unassigned :
    ([0x00000000#32, 0x00000007#32, 0x0000000f#32, 0x00000020#32, 0x00010007#32].all
      fun v => illegalAs Config.full v .unassignedOpcode) = true := by decide

theorem test_decode_absent :
    ([0x00000004#32, 0x00010004#32, 0x000000c6#32].all fun v => illegalAs cfg32 v .featureAbsent) = true ∧
    illegalAs cfg64 0x00000004#32 .featureAbsent = true ∧ illegalAs cfgNoPeek 0x00000046#32 .featureAbsent = true := by decide

theorem test_decode_reserved :
    ([0x00010002#32, 0x00000012#32, 0x00010005#32, 0x000000e6#32, 0x00000146#32, 0x00000016#32, 0x00010026#32, 0x10000046#32,
      0x00000021#32, 0x00000101#32, 0x00010004#32].all fun v => illegalAs Config.full v .reservedField) = true := by decide

theorem test_encode : encode (.init false 8) = 0x00080001#32 ∧ encode (.stream true 5) = 0x00050013#32 ∧
    encode (.peekRes 255) = 0x0000ff06#32 ∧ encode (.peekMem 3) = 0x00000326#32 ∧ encode .peekBidx = 0x000000c6#32 := by decide

/-- The host's two questions on one word. -/
theorem test_table_word : decodeTableWord 32 0x00080001 = some (.init false 8) ∧ decodeTableWord 32 0xe6 = none ∧
    nextIs (step (State.reset.withFetchWord 32 0x000a6)) (fun t => t.core.out == 0) = true := by decide

/-! ## The assembler (R81, R82) -/

theorem test_assembler_text :
    parseLine ['p', 'e', 'e', 'k', ' ', 'R', 'e', 's', ',', ' ', '0', 'x', 'F', 'f', ' ', ';', 'x'] = some (.peekRes 255) ∧
    parseLine ['S', 'T', 'R', 'E', 'A', 'M', '.', 'a', 'b', 's', ' ', '5'] = some (.stream true 5) ∧
    parseLine ['.', 's', 'e', 'e', 'd', ' ', '1', ',', '2', ',', ' ', '3'] = some (.seed [1, 2, 3]) ∧
    parseLine [' ', ';', 'n', 'e', 'x', 't'] = some .blank ∧
    parseLine ['n', 'e', 'x', 't', ' ', '1'] = none := by decide

theorem test_assembler_words :
    assemble .initZero = .command 0x00000011#32 true ∧ assemble (.init false 65536) = .refused ∧
    assemble (.peekRes 256) = .refused ∧ assemble (.seed [1, 256]) = .refused ∧
    assemble (.word 0x10007) = .command 0x00010007#32 false := by decide

/-! ## The mixing networks, the shift expressions and the indices (95_test_vectors.md M1 to M5, K1) -/

theorem test_mix32 : mix32 ⟨golden .w32, golden .w32, golden .w32, golden .w32, golden .w32, golden .w32, golden .w32, golden .w32⟩ =
    ⟨0x3f879d38#32, 0x0e56dea4#32, 0x616a0f84#32, 0x7e4c685d#32, 0x41d767b9#32, 0x0b360cdb#32, 0xf273b188#32, 0x11273859#32⟩ := by
  decide

theorem test_mix64 : mix64 ⟨golden .w64, golden .w64, golden .w64, golden .w64, golden .w64, golden .w64, golden .w64, golden .w64⟩ =
    ⟨0xffbf17b3db54a2e6#64, 0xffbf17b3de995573#64, 0x205a3e2eef35606e#64, 0x9e782c2584f3db35#64, 0x73d308522fbb1ce7#64,
      0x1c9685dc55719f5f#64, 0x7d9c87ab0c865c15#64, 0xffbf4c207c714070#64⟩ := by decide

theorem test_golden_mixed32 : goldenMixed .w32 =
    ⟨0x1367df5a#32, 0x95d90059#32, 0xc3163e4b#32, 0x0f421ad8#32, 0xd92a4a78#32, 0xa51a3c49#32, 0xc4efea1b#32, 0x30609119#32⟩ := by
  decide

theorem test_golden_mixed64 : (goldenMixed .w64).k0 = 0x647c4677a2884b7c#64 ∧ (goldenMixed .w64).k7 = 0x98f5704f6c44c0ab#64 := by
  decide +kernel

theorem test_amix32 : aMix .w32 0 0x12345678#32 = 0x98fb5678#32 ∧ aMix .w32 1 0x12345678#32 = 0x127c8721#32 ∧
    aMix .w32 2 0x12345678#32 = 0x5ae50f98#32 ∧ aMix .w32 3 0x12345678#32 = 0x1234444c#32 := by decide

theorem test_amix64 : aMix .w64 0 0x0123456789abcdef#64 = 0x522d8fe1cbb43210#64 ∧ aMix .w64 1 0x0123456789abcdef#64 = 0x012a5f4cb5e69380#64 ∧
    aMix .w64 2 0x0123456789abcdef#64 = 0x35753dfd35753def#64 ∧ aMix .w64 3 0x0123456789abcdef#64 = 0x01234567893a6f5c#64 := by decide

theorem test_indices : idx1 .w32 0x12345678#32 = 158 ∧ idx2 .w32 0x12345678#32 = 21 ∧ idx1 .w32 0x3fc#32 = 255 ∧ idx2 .w32 0x400#32 = 1 ∧
    idx1 .w64 0x0123456789abcdef#64 = 189 ∧ idx2 .w64 0x0123456789abcdef#64 = 121 ∧ idx1 .w64 0x7f8#64 = 255 ∧
    idx2 .w64 0x800#64 = 1 := by decide

/-! ## The scramble and the Shuffle (95_test_vectors.md K2, H1, H2) -/

theorem test_micro_steps32 : let x := (Context.zero .w32).countRound.microSteps 6
    x.mem.read 0 = 1 ∧ x.mem.read 5 = 2 ∧ x.res.read 0 = 1 ∧ x.res.read 5 = 1 ∧ x.a = 0 := by decide +kernel

theorem test_micro_steps64 : let x := (Context.zero .w64).countRound.microSteps 6
    x.mem.read 0 = 0 ∧ x.mem.read 1 = 0xf800000000000000#64 ∧ x.mem.read 4 = 0x07f07fff83ffffff#64 ∧
    x.a = 0x07cffc007fe00000#64 ∧ x.b = 0 := by decide +kernel

theorem test_shuffle_zero_a : (Context.zero .w32).shuffle.a = 0xd4caab06#32 := by decide +kernel

theorem test_scramble_zero_seed : (Context.zero .w32).keyScramble.mem.read 255 = 0x41bffb5a#32 := by decide +kernel

/-! ## One step of each command -/

/-- INIT with an absent seed needs no buffer (R104); INIT's other results are proved for every state. -/
theorem test_init_abs_runs : nextIs (step (cmd cfg32 0x00c80011#32)) (fun t => t.core.initDone && (t.core.gran == .none)) = true := by decide

/-- A bound buffer of three bytes lacks the fourth (R57). -/
theorem test_init_short_buffer : faultIs (step (cmd cfg32 0x00040001#32)) .seedBufferShort = true := by decide

/-- NEXT reads at the cursor and moves down (R162). -/
theorem test_next : nextIs (exec .next (coreOf cfg32 (ctxOf .w32 9 0 0x182600f3#32) []))
    (fun t => t.core.out.toNat == 0x182600f3 && t.core.ctx.cur == 8 && t.core.gran == .word && !t.core.mixed) = true := by decide

/-- NEXT with `CUR = 0` returns the old `RES[0]` and leaves `CUR = 255` (R163 item 1). -/
theorem test_next_last : nextIs (exec .next (coreOf cfg64 (ctxOf .w64 0 0 0x48cbff086ddf285a#64) []))
    (fun t => t.core.out.toNat == 0x48cbff086ddf285a && t.core.ctx.cur == 255) = true := by decide

/-- STREAM writes ascending slots and leaves `OUT` (R164). -/
theorem test_stream : nextIs (exec (.stream false 2) (coreOf cfg32 (ctxOf .w32 9 0 0x182600f3#32) []))
    (fun t => (t.core.outBuf.read 0).map BitVec.toNat == some 0x182600f3 && (t.core.outBuf.read 1).map BitVec.toNat == some 0 &&
      t.core.outBuf.read 2 == none &&
      t.core.ctx.cur == 7 && t.core.out == 0) = true := by decide

/-- The buffer has four slots (R57). -/
theorem test_stream_short_buffer : faultIs (step (cmd cfg32 0x00050003#32)) .outBufferShort = true := by decide

/-- NEXTB returns byte 2 and moves to byte 3 (R171, R172). -/
theorem test_nextb : nextIs (exec .nextb (coreOf Config.full (ctxOf .w32 9 2 0x182600f3#32) []))
    (fun t => t.core.out.toNat == 0x26 && t.core.ctx.cur == 9 && t.core.ctx.bidx == 3 && t.core.gran == .byte) = true := by decide

/-- NEXTB after byte 3 moves to the next word (R171). -/
theorem test_nextb_last_byte : nextIs (exec .nextb (coreOf Config.full (ctxOf .w32 9 3 0x182600f3#32) []))
    (fun t => t.core.out.toNat == 0x18 && t.core.ctx.cur == 8 && t.core.ctx.bidx == 0) = true := by decide

/-- ERASE zeroes the context and keeps `ILLEGAL` (R190, R216). -/
theorem test_erase : nextIs (exec .erase ((coreOf cfg32 (ctxOf .w32 9 0 5#32) []).takeIllegalCommand 7 .unassignedOpcode))
    (fun t => t.core.ctx.res.read 9 == 0 && t.core.ctx.cur == 0 && t.core.illegal && t.core.ecause == 1 && t.core.errCmd == 7) = true := by
  decide

theorem test_peek_res : nextIs (exec (.peekRes 9) (coreOf cfg32 (ctxOf .w32 9 0 5#32) [])) (fun t => t.core.out.toNat == 5) = true := by decide
theorem test_peek_mem : nextIs (exec (.peekMem 255) (coreOf cfg32 { Context.zero .w32 with mem := (Context.zero .w32).mem.write 255 5#32 } []))
    (fun t => t.core.out.toNat == 5) = true := by decide
theorem test_peek_a : nextIs (exec .peekA (coreOf cfg64 { Context.zero .w64 with a := 5#64 } [])) (fun t => t.core.out.toNat == 5) = true := by
  decide
theorem test_peek_b : nextIs (exec .peekB (coreOf cfg64 { Context.zero .w64 with b := 5#64 } [])) (fun t => t.core.out.toNat == 5) = true := by
  decide
theorem test_peek_c : nextIs (exec .peekC (coreOf cfg64 { Context.zero .w64 with c := 5#64 } [])) (fun t => t.core.out.toNat == 5) = true := by
  decide
theorem test_peek_cur : nextIs (exec .peekCur (coreOf cfg64 (ctxOf .w64 255 0 5#64) [])) (fun t => t.core.out.toNat == 255) = true := by decide
theorem test_peek_bidx : nextIs (exec .peekBidx (coreOf Config.full (ctxOf .w32 9 3 5#32) [])) (fun t => t.core.out.toNat == 3) = true := by
  decide

/-- An illegal word with PEEK absent: `STATUS` becomes `0000000e` (95_test_vectors.md E5). -/
theorem test_illegal_status : nextIs (step (cmd cfgNoPeek 0x00000046#32))
    (fun t => statusWord t.config t.core == 0x0000000e#32 && t.core.errCmd == 0x46#32 && t.core.faults.length == 1) = true := by decide

/-- The two layouts of a word (95_test_vectors.md C1, C2). -/
theorem test_codec :
    toLittleEndian (w := .w32) [0x182600f3#32, 0x300b4a8d#32] = [0xf3, 0x00, 0x26, 0x18, 0x8d, 0x4a, 0x0b, 0x30] ∧
    toBigEndian (w := .w64) [0x9d39247e33776d41#64] = [0x9d, 0x39, 0x24, 0x7e, 0x33, 0x77, 0x6d, 0x41] := by decide

/-- The reset state's memories are in canonical form. -/
theorem test_reset_memory : Memory.wf (α := Byte) State.reset.core.seedBuf ∧ State.reset.core.outBuf.wf := by decide

/-- R58: slots of 4 bytes at multiples of 4 are aligned, slots of 8 bytes at multiples of 4 need not be. -/
theorem test_slots_aligned : Config.full.slotsAligned = true ∧ cfg64.slotsAligned = false := by decide

/-! ## Witnesses: for each statement with hypotheses, states and operands that meet them, each clause at its boundary values -/

/-- A command word waits at `cmd cfg v`. -/
theorem cmd_waits (cfg : Config) (v : CommandWord) : (cmd cfg v).commandWaiting v [] := rfl

theorem witness_BuildGivesExactlyTheLegalConfigurations :
    (Config.build 64 true true 0 .lowFirst 4 = none) ∧ (Config.build 33 false true 0 .lowFirst 4 = none) ∧
    (Config.build 0 true true 0 .lowFirst 4 = none) ∧ (Config.build 32 false false 4 .lowFirst 4).isSome = true ∧
    (Config.build 32 true true 0 .highFirst 4).isSome = true ∧ (Config.build 64 false true 0 .highFirst 4).isSome = true ∧
    Config.full.byteMode = true := by decide

theorem witness_ResetGivesTheDrawAndClearRegisters :
    let s := coreOf cfg64 (Context.zero .w64) [.reset (ctxOf .w64 200 3 9#64)]
    s.core.pending = .reset (ctxOf .w64 200 3 9#64) :: [] ∧
    nextIs (step s) (fun t => t.core.ctx.cur == 200 && t.core.ctx.bidx == 0) = true ∧ Config.full.byteMode = true ∧
    cfg64.width = .w64 := ⟨rfl, by decide, by decide, by decide⟩

theorem witness_ResetLeavesTheHostsPart :
    nextIs (step (coreOf cfg64 (Context.zero .w64) [.reset (Context.zero .w64), .bindSeed []]))
      (fun t => t.core.outBuf.slots == 4 && t.core.pending.length == 1) = true := by decide

/-- Words of each opcode, legal and with a reserved field. -/
theorem witness_opcode_clauses :
    opField 0x00000011#32 = 1 ∧ opField 0x00000021#32 = 1 ∧ opField 0x00000002#32 = 2 ∧ opField 0x00000012#32 = 2 ∧
    opField 0x012c0003#32 = 3 ∧ opField 0x00000103#32 = 3 ∧ opField 0x00000004#32 = 4 ∧ opField 0x00010004#32 = 4 ∧
    opField 0x00000005#32 = 5 ∧ opField 0x00010005#32 = 5 ∧ opField 0x0000ff06#32 = 6 ∧ opField 0x000000e6#32 = 6 := by decide

theorem witness_StepNeverWritesTheConfiguration : nextIs (step (cmd cfg32 0x5#32)) (fun _ => true) = true := by decide

theorem witness_DecodeOfEncodeIsTheCommand :
    ([.init true 65535, .init false 0, .next, .stream true 0, .stream false 65535, .nextb, .erase, .peekRes 0, .peekRes 255,
      .peekMem 255, .peekA, .peekB, .peekC, .peekCur, .peekBidx] : List Instr).all
        (fun i => i.wellFormed Config.full && decodesTo Config.full (encode i) i) = true := by decide

theorem witness_EncodeOfDecodeIsTheWord : decodesTo cfg64 0xffff0011#32 (.init true 65535) = true := by decide

theorem witness_RowsAreDisjointAndOthersIllegal :
    selectsRow 0x0000ff06#32 .peekRes = true ∧ (allRows.all fun r => !selectsRow 0x000000e6#32 r) = true := by decide

theorem witness_ReservedOpcodeRaisesCauseOne :
    (cmd cfg32 0#32).commandWaiting 0#32 [] ∧ opField 0#32 = 0 ∧ (cmd cfg64 7#32).commandWaiting 7#32 [] ∧ 7 ≤ (opField 7#32).toNat ∧
    (cmd cfg64 0xfffffff#32).commandWaiting 0xfffffff#32 [] ∧ 7 ≤ (opField 0xfffffff#32).toNat :=
  ⟨rfl, by decide, rfl, by decide, rfl, by decide⟩

theorem witness_AbsentCommandRaisesCauseThree :
    (cmd cfg64 4#32).commandWaiting 4#32 [] ∧ opField 4#32 = 4 ∧ cfg64.width = .w64 ∧
    (cmd cfg32 0x10004#32).commandWaiting 0x10004#32 [] ∧ opField 0x10004#32 = 4 ∧ cfg32.byteMode = false ∧
    (cmd cfgNoPeek 0x46#32).commandWaiting 0x46#32 [] ∧ opField 0x46#32 = 6 ∧ cfgNoPeek.peekEn = false ∧
    (cmd cfg32 0xc6#32).commandWaiting 0xc6#32 [] ∧ opField 0xc6#32 = 6 ∧ selField 0xc6#32 = 6 :=
  ⟨rfl, by decide, by decide, rfl, by decide, by decide, rfl, by decide, by decide, rfl, by decide, by decide⟩

theorem witness_ReservedFieldRaisesCauseTwo :
    (cmd Config.full 0x12#32).commandWaiting 0x12#32 [] ∧ pickRow (opField 0x12#32) (selField 0x12#32) = some .next ∧
    (rowInstr 0x12#32 .next).wellFormed Config.full = true ∧ 0x12#32 &&& (rowBits .next).mask ≠ (rowBits .next).pattern ∧
    (cmd Config.full 0x80000026#32).commandWaiting 0x80000026#32 [] ∧
    pickRow (opField 0x80000026#32) (selField 0x80000026#32) = some .peekMem ∧
    (rowInstr 0x80000026#32 .peekMem).wellFormed Config.full = true ∧
    0x80000026#32 &&& (rowBits .peekMem).mask ≠ (rowBits .peekMem).pattern :=
  ⟨rfl, by decide, by decide, by decide, rfl, by decide, by decide, by decide⟩

theorem witness_CausePriorityOnTheSpecsExamples :
    opField 0xe6#32 = 6 ∧ selField 0xe6#32 = 7 ∧ cfg32.peekEn = true ∧ cfg32.byteMode = false := by decide

theorem witness_IllegalWordTakesTheException :
    (cmd cfg32 7#32).commandWaiting 7#32 [] ∧ decode cfg32 7#32 = .error .unassignedOpcode ∧
    (cmd cfg32 4#32).commandWaiting 4#32 [] ∧ decode cfg32 4#32 = .error .featureAbsent ∧
    (cmd cfg32 0x12#32).commandWaiting 0x12#32 [] ∧ decode cfg32 0x12#32 = .error .reservedField :=
  ⟨rfl, rfl, rfl, rfl, rfl, rfl⟩

theorem witness_StatusTellsTheMostRecentIllegalCommand :
    nextIs (step (cmd cfg32 7#32)) (fun t => t.core.illegal) = true ∧
    nextIs (step (coreOf cfg32 (Context.zero .w32) [.reset (Context.zero .w32)])) (fun t => !t.core.illegal) = true ∧
    nextIs (step (cmd cfg32 5#32)) (fun t => !t.core.illegal) = true ∧ decodesTo cfg32 5#32 .erase = true := by decide

theorem witness_FaultMarkIsKeptForTheRun :
    nextIs (step (cmd cfg32 7#32)) (fun t => t.core.faults == [⟨.unassignedOpcode, 7#32⟩]) = true ∧
    nextIs (step (cmd cfg32 5#32)) (fun t => t.core.faults == []) = true := by decide

theorem witness_OnlyInitAndEraseWriteInitDone :
    nextIs (exec (.init false 3) (cmd cfg32 0#32)) (fun t => t.core.initDone) = true ∧
    nextIs (exec .erase (cmd cfg32 0#32)) (fun t => !t.core.initDone) = true ∧
    nextIs (exec .peekCur (cmd cfg32 0#32)) (fun t => !t.core.initDone) = true := by decide

theorem witness_OnlyReadsPeeksAndEraseWriteOut :
    nextIs (exec .next (coreOf cfg32 (ctxOf .w32 9 0 5#32) [])) (fun t => t.core.out.toNat == 5) = true ∧
    nextIs (exec .nextb (coreOf Config.full (ctxOf .w32 9 0 5#32) [])) (fun t => t.core.out.toNat == 5) = true ∧
    nextIs (exec .nextb (cmd cfg32 0#32)) (fun t => t.core.out == 0) = true ∧
    nextIs (exec .peekA (cmd cfg32 0#32)) (fun t => t.core.out == 0) = true ∧
    nextIs (exec .erase (cmd cfg32 0#32)) (fun t => t.core.out == 0) = true ∧
    nextIs (exec (.stream false 4) (coreOf cfg32 (ctxOf .w32 9 0 5#32) [])) (fun t => t.core.out == 0) = true := by decide

/-- The three-byte buffer holds the seed of INITs with no seed, with length 0, and with length 3; a 256-byte buffer that of length 65535. -/
theorem witness_InitRunsItsStatementsInOrder :
    (∀ i < effectiveLength true 65535, (Memory.read (α := Byte) (cmd cfg32 0#32).core.seedBuf i).isSome = true) ∧
    (∀ i < effectiveLength false 0, (Memory.read (α := Byte) (cmd cfg32 0#32).core.seedBuf i).isSome = true) ∧
    (∀ i < effectiveLength false 3, (Memory.read (α := Byte) (cmd cfg32 0#32).core.seedBuf i).isSome = true) ∧
    effectiveLength false 65535 = 256 ∧ (seedBytes (seedBufferOf (List.replicate 256 9)) 256).isSome = true := by decide +kernel

theorem witness_InitLeavesTheFirstBatch : nextIs (exec (.init false 3) (cmd cfg64 0#32)) (fun _ => true) = true := by decide

/-- The invariant in two different states of one configuration. -/
theorem inv_of_cmd (cfg : Config) (v : CommandWord) : (cmd cfg v).Inv := by
  refine ⟨?_, ?_, ?_, .inl ⟨rfl, rfl, rfl⟩, ?_, ?_⟩
  · show Memory.wf (α := Byte) (seedBufferOf [1, 2, 3])
    decide
  · refine ⟨?_, fun x hx => ?_⟩
    · exact List.pairwise_singleton _ _
    · have : x = (0, 7) := List.mem_singleton.1 hx
      subst this
      exact (by decide : 0 < 4)
  · intro h
    show (if cfg.byteMode then Context.zero cfg.width else { Context.zero cfg.width with bidx := 0 }).bidx = 0
    rw [show cfg.byteMode = false from h]
    rfl
  · intro h
    cases h
  · intro h
    cases h

theorem witness_InitContextDependsOnTheSeedAlone :
    (cmd cfg32 0#32).core.Inv cfg32 ∧ (cmd cfg32 5#32).core.Inv cfg32 ∧ effectiveLength false 3 = effectiveLength false 3 ∧
    (cmd cfg32 0#32).core.holdsSeed false 3 ∧ effectiveLength true 77 = effectiveLength false 0 :=
  ⟨inv_of_cmd cfg32 0, inv_of_cmd cfg32 5, rfl, by unfold CoreState.holdsSeed; decide, by decide⟩

theorem witness_SeedIsTruncatedAndPadded :
    256 ≤ (256 : BitVec 16).toNat ∧ 256 ≤ (65535 : BitVec 16).toNat ∧ ([] : List Byte).length + 256 ≤ 256 ∧
    ([1, 2] : List Byte).length + 254 ≤ 256 ∧ ([1, 2] : List Byte).length + 0 ≤ 256 := by decide

theorem witness_SeedLoadTakesBytesValueWise :
    seedBytes (seedBufferOf [1, 2, 3]) 3 = some [1, 2, 3] ∧ seedBytes [] 0 = some [] ∧ (2 : Index).toNat < 3 ∧ 3 ≤ (3 : Index).toNat ∧
    (seedLoad .w64 [1, 2, 3]).read 2 = 3 ∧ (seedLoad .w64 [1, 2, 3]).read 3 = 0 := by decide +kernel

theorem witness_BrokenBufferDutyStops :
    3 < effectiveLength false 4 ∧ Memory.read (α := Byte) (cmd cfg32 0#32).core.seedBuf 3 = none ∧
    255 < effectiveLength false 65535 ∧ Memory.read (α := Byte) (cmd cfg32 0#32).core.seedBuf 255 = none ∧
    (cmd cfg32 0#32).core.outBuf.slots < (5 : BitVec 16).toNat := by decide

theorem witness_MicroStepFollowsItsFormulas : (255 : Index) ≠ 0 ∧ (0 : Index) ≠ 255 := by decide

theorem witness_KeyScrambleCarriesRegistersThroughBothPasses : 0 < 32 ∧ 31 < 32 := by decide

theorem witness_ShuffleWritesEachElementOnceInOrder : 0 < 256 ∧ 127 < 128 ∧ 128 ≤ 128 ∧ 128 ≤ 255 ∧ 255 < 256 := by decide

theorem witness_ShuffleCornerCases : ({ Context.zero .w32 with c := 0xffffffff#32 } : Context .w32).c = -1 := by decide

theorem witness_NextReturnsTheWordAndAdvances :
    (coreOf cfg32 (ctxOf .w32 1 0 5#32) []).core.ctx.cur ≠ 0 ∧ (coreOf cfg64 (ctxOf .w64 0 0 5#64) []).core.ctx.cur = 0 := by decide

theorem witness_StreamWritesCountWords :
    (0 : BitVec 16).toNat ≤ (cmd cfg32 0#32).core.outBuf.slots ∧ (4 : BitVec 16).toNat ≤ (cmd cfg32 0#32).core.outBuf.slots ∧
    3 < (4 : BitVec 16).toNat ∧ (4 : BitVec 16).toNat ≤ 4 := by decide

theorem witness_StreamEqualsThatManyNexts : (4 : BitVec 16).toNat ≤ (cmd cfg32 0#32).core.outBuf.slots := by decide

theorem witness_StreamsComposeByAddition :
    (1 : BitVec 16).toNat + (3 : BitVec 16).toNat ≤ 65535 ∧
    (1 : BitVec 16).toNat + (3 : BitVec 16).toNat ≤ (cmd cfg32 0#32).core.outBuf.slots := by decide

theorem witness_ReshuffleSchedule : (coreOf cfg32 (ctxOf .w32 255 0 5#32) []).core.ctx.cur = 255 := by decide

theorem witness_StreamRunsOneShufflePerBatchBoundary : (4 : BitVec 16).toNat ≤ (cmd cfg64 0#32).core.outBuf.slots := by decide

theorem witness_NextbReturnsTheByteAndAdvances :
    Config.full.byteMode = true ∧ (coreOf Config.full (ctxOf .w32 9 0 5#32) []).core.ctx.bidx = 0 ∧
    (coreOf Config.full (ctxOf .w32 9 1 5#32) []).core.ctx.bidx = 1 ∧ (coreOf Config.full (ctxOf .w32 9 2 5#32) []).core.ctx.bidx = 2 ∧
    (coreOf Config.full (ctxOf .w32 1 3 5#32) []).core.ctx.bidx = 3 ∧ (coreOf Config.full (ctxOf .w32 1 3 5#32) []).core.ctx.cur ≠ 0 ∧
    (coreOf Config.full (ctxOf .w32 0 3 5#32) []).core.ctx.cur = 0 := by decide

theorem witness_FourNextbsReadOneWord :
    Config.full.byteMode = true ∧ (coreOf Config.full (ctxOf .w32 9 0 5#32) []).core.ctx.bidx = 0 := by decide

theorem witness_WordReadsIgnoreTheByteIndex :
    nextIs (exec .next (coreOf Config.full (ctxOf .w32 9 2 5#32) [])) (fun t => t.core.ctx.bidx == 2) = true ∧
    nextIs (exec (.stream false 4) (coreOf Config.full (ctxOf .w32 9 2 5#32) [])) (fun t => t.core.ctx.bidx == 2) = true ∧
    Config.full.byteMode = true := by decide

theorem witness_GhostRecordsGranularityAndMixing :
    nextIs (exec .erase (cmd cfg32 0#32)) (fun t => t.core.gran == .none) = true ∧
    nextIs (exec (.init true 0) (cmd cfg32 0#32)) (fun t => t.core.gran == .none) = true ∧
    nextIs (exec (.stream false 1) (coreOf cfg32 (ctxOf .w32 9 0 5#32) [])) (fun t => t.core.gran == .word) = true ∧
    1 ≤ (1 : BitVec 16).toNat ∧
    nextIs (exec .nextb (coreOf Config.full (ctxOf .w32 9 0 5#32) [])) (fun t => t.core.gran == .byte) = true ∧
    nextIs (exec (.stream false 0) (cmd cfg32 0#32)) (fun t => t.core.gran == .none) = true ∧
    nextIs (exec .nextb (cmd cfg32 0#32)) (fun t => t.core.gran == .none) = true ∧
    nextIs (exec .peekA (cmd cfg32 0#32)) (fun t => t.core.gran == .none) = true ∧
    nextIs (step (coreOf cfg32 (Context.zero .w32) [.reset (Context.zero .w32)])) (fun t => t.core.gran == .none) = true := by decide

theorem witness_PeekCopiesOneElement : (cmd cfg64 0#32).config.peekEn = true ∧ Config.full.peekEn = true ∧ Config.full.byteMode = true := by
  decide

theorem witness_ExecOfAbsentCommandTakesTheException : Instr.wellFormed (cmd cfg64 0#32).config .nextb = false := by decide

theorem witness_CommandsWriteOnlyTheirColumns :
    nextIs (exec .nextb (cmd cfg32 0#32)) (fun t => t.core.illegal) = true ∧
    nextIs (exec .peekC (cmd cfg32 0#32)) (fun t => !t.core.illegal) = true ∧
    nextIs (exec .nextb (coreOf Config.full (ctxOf .w32 0 2 5#32) [])) (fun t => t.core.ctx.a == 0) = true ∧
    nextIs (exec .next (coreOf cfg32 (ctxOf .w32 1 0 5#32) [])) (fun t => t.core.ctx.a == 0) = true ∧
    nextIs (exec (.stream false 1) (coreOf cfg32 (ctxOf .w32 1 0 5#32) [])) (fun t => t.core.ctx.a == 0) = true ∧
    (1 : BitVec 16).toNat ≤ (1 : Index).toNat := by decide

theorem witness_StepRunsTheDecodedCommand :
    (cmd cfg32 0xa6#32).commandWaiting 0xa6#32 [] ∧ decode cfg32 0xa6#32 = .ok .peekCur := ⟨rfl, rfl⟩

theorem witness_IdleCoreHoldsItsState : State.reset.core.pending = [] := rfl

/-- Host reads of every place of the block, with both half orders of a 64-bit `OUT`. -/
theorem witness_RegisterMapReads :
    let reads (cfg : Config) (offset : Nat) (size : BusSize) (v : BusData) : Bool :=
      nextIs (step (coreOf cfg (Context.zero cfg.width) [.read (cfg.regBase + offset) size])) fun t => t.core.readData == some v
    reads cfg32 0 .b32 (.d32 0) = true ∧ reads cfg32 4 .b32 (.d32 0x80) = true ∧ reads cfg32 8 .b32 (.d32 0) = true ∧
    reads cfg32 12 .b32 (.d32 0) = true ∧ reads cfg32 16 .b32 (.d32 0) = true ∧ reads cfgHigh 16 .b64 (.d64 0) = true ∧
    reads cfgHigh 16 .b32 (.d32 0) = true ∧ reads cfgHigh 20 .b32 (.d32 0) = true ∧
    cfgHigh.outHalfOrder = .highFirst ∧ cfg64.outHalfOrder = .lowFirst ∧ cfgHigh.width = .w64 := by decide

theorem witness_OnlyCommandWritesHaveEffects :
    nextIs (step (coreOf cfg32 (Context.zero .w32) [.write 16 (.d32 5)])) (fun t => t.core.out == 0) = true ∧ 16 ≠ cfg32.regBase ∧
    nextIs (step (coreOf cfg32 (Context.zero .w32) [.write 4 (.d32 5)])) (fun t => statusWord t.config t.core == 0x80#32) = true ∧
    nextIs (step (coreOf cfg32 (Context.zero .w32) [.read 4 .b32])) (fun t => t.core.readData == some (.d32 0x80)) = true := by decide

theorem witness_AccessOutsideTheBlockIsRefused :
    refusalIs (step (coreOf cfg32 (Context.zero .w32) [.read 20 .b32])) .outsideRegisterBlock = true ∧
    refusalIs (step (coreOf cfg64 (Context.zero .w64) [.write 24 (.d32 2)])) .outsideRegisterBlock = true ∧
    refusalIs (step (coreOf cfgHigh (Context.zero .w64) [.write 0xfff (.d32 2)])) .outsideRegisterBlock = true ∧
    cfg32.regBase + 0x10 + cfg32.width.bits / 8 ≤ 20 ∧ cfg64.regBase + 0x10 + cfg64.width.bits / 8 ≤ 24 ∧ 0xfff < cfgHigh.regBase := by
  decide

theorem witness_BoundBuffersReadBack :
    (coreOf cfg32 (Context.zero .w32) [.bindSeed [4, 5]]).core.pending = .bindSeed [4, 5] :: [] ∧
    (coreOf cfg32 (Context.zero .w32) [.bindOut 1 [4, 5]]).core.pending = .bindOut 1 [4, 5] :: [] ∧
    2 ≤ ([4, 5] : List Byte).length := ⟨rfl, rfl, by decide⟩

theorem witness_PlacedWordRunsNext :
    decode State.reset.config 0x00030001#32 = .ok (.init false 3) ∧ decode State.reset.config 0xffff0003#32 = .ok (.stream false 65535) ∧
    nextIs (step (State.reset.withFetchWord 32 0x00030001)) (fun t => t.core.initDone) = true := ⟨rfl, rfl, by decide⟩

theorem witness_StepKeepsTheInvariant : (cmd cfg64 7#32).Inv ∧ nextIs (step (cmd cfg64 7#32)) (fun t => t.core.illegal) = true :=
  ⟨inv_of_cmd cfg64 7, by decide⟩

theorem witness_EndianCodecLayouts : ([1#64, 2#64] : List (Word .w64))[1]? = some 2#64 ∧ 7 < Width.w64.bits / 8 ∧ 0 < Width.w32.bits / 8 := by
  decide

theorem witness_AssemblerGivesDecodableWords :
    cfg64.peekEn = true ∧ 65535 < 65536 ∧ 65536 ≤ 65536 ∧ 255 < 256 ∧ 256 ≤ 256 ∧ 4294967295 < 2 ^ 32 := by decide

end Sys2Proof.Tests
end

section
/-!
PROOFS of the family 00_scope.md: which configurations the build gives (R2, R4).
-/

namespace Sys2Proof

/-- R4: the one pair of legal parameter values that is no variant. -/
theorem Config.build_w64_byteMode (peekEn : Bool) (base : Nat) (order : HalfOrder) (align : Nat) :
    Config.build 64 true peekEn base order align = none := rfl

/-- R2: `W` has no values but 32 and 64. -/
theorem Config.build_other_width {n : Nat} (h32 : n ≠ 32) (h64 : n ≠ 64) (byteMode peekEn : Bool) (base : Nat)
    (order : HalfOrder) (align : Nat) : Config.build n byteMode peekEn base order align = none := by
  unfold Config.build
  split
  · exact absurd rfl h32
  · exact absurd rfl h32
  · exact absurd rfl h64
  · rfl

/-- The build gives each variant with its own width and byte mode, and with the other parameters as they are asked for. -/
theorem Config.build_of_config (cfg : Config) :
    Config.build cfg.width.bits cfg.byteMode cfg.peekEn cfg.regBase cfg.outHalfOrder cfg.outBufAlign = some cfg := by
  obtain ⟨variant, peekEn, base, order, align⟩ := cfg
  cases variant <;> rfl

/-- R4: a width and a byte mode that go together are those of a variant. -/
theorem Config.exists_of_legal_pair {n : Nat} {byteMode : Bool} (h : n = 32 ∨ (n = 64 ∧ byteMode = false)) (peekEn : Bool)
    (base : Nat) (order : HalfOrder) (align : Nat) :
    ∃ cfg : Config, cfg.width.bits = n ∧ cfg.byteMode = byteMode ∧ cfg.peekEn = peekEn ∧ cfg.regBase = base ∧
      cfg.outHalfOrder = order ∧ cfg.outBufAlign = align := by
  obtain rfl | ⟨rfl, rfl⟩ := h
  · cases byteMode with
    | false => exact ⟨⟨.isaac32, peekEn, base, order, align⟩, rfl, rfl, rfl, rfl, rfl, rfl⟩
    | true => exact ⟨⟨.isaac32B, peekEn, base, order, align⟩, rfl, rfl, rfl, rfl, rfl, rfl⟩
  · exact ⟨⟨.isaac64, peekEn, base, order, align⟩, rfl, rfl, rfl, rfl, rfl, rfl⟩

/-- Settles O1: the two refusals by the rows of `Config.build`; a legal pair is that of some configuration, and the build
of a configuration's own parameters gives that configuration back. -/
theorem buildGivesExactlyTheLegalConfigurations : Obligations.BuildGivesExactlyTheLegalConfigurations := by
  intro n byteMode peekEn base order align
  refine ⟨Config.build_w64_byteMode peekEn base order align,
    fun h32 h64 => Config.build_other_width h32 h64 byteMode peekEn base order align, fun hlegal => ?_,
    fun _ => Config.width_of_byteMode⟩
  obtain ⟨cfg, rfl, rfl, rfl, rfl, rfl, rfl⟩ := Config.exists_of_legal_pair hlegal peekEn base order align
  exact ⟨cfg, Config.build_of_config cfg, rfl, rfl, rfl, rfl, rfl, rfl⟩

end Sys2Proof
end

section
/-!
PROOFS of the family 10_state.md: the state after a reset (R40), and the ghost state of the granularity contract (R33, R34).
-/

namespace Sys2Proof.Machine

/-! ## The state after a reset -/

/-- `STATUS` with no event recorded shows the configuration bits alone (R26): bits 5, 6 and 7, each by itself. -/
theorem statusWord_of_no_event {cfg : Config} {k : CoreState cfg.width} (hdone : k.initDone = false)
    (hillegal : k.illegal = false) (hcause : k.ecause = 0) :
    statusWord cfg k = (if cfg.width = .w64 then 0x20#32 else 0) + (if cfg.byteMode then 0x40#32 else 0) +
      (if cfg.peekEn then 0x80#32 else 0) := by
  rw [statusWord, hdone, hillegal, hcause]
  cases cfg.width <;> cases cfg.byteMode <;> cases cfg.peekEn <;> decide

/-- A reset of any core gives it the values of R40. -/
theorem CoreState.applyReset_isReset (cfg : Config) (k : CoreState cfg.width) (draw : Context cfg.width) :
    (CoreState.applyReset cfg k draw).isReset cfg draw := by
  have hstatus := statusWord_of_no_event (k := CoreState.applyReset cfg k draw) rfl rfl rfl
  cases hbyte : cfg.byteMode <;> simp [CoreState.isReset, hstatus, hbyte]

/-- Power-on gives the core the values of R40: what a reset keeps of a core does not bear on them. -/
theorem State.resetWith_isReset (cfg : Config) (draw : Context cfg.width) : (State.resetWith cfg draw).core.isReset cfg draw :=
  CoreState.applyReset_isReset cfg (CoreState.atReset cfg draw) draw

/-- A step whose host action is a reset carries the reset out, the action taken off the list. -/
theorem step_of_resetWaiting {s : State} {draw : Context s.config.width} {rest : List (HostAction s.config.width)}
    (h : s.core.pending = .reset draw :: rest) :
    step s = .next { s with core := CoreState.applyReset s.config { s.core with pending := rest } draw } := by
  simp only [step, fetch, h, hostAct]

/-- Settles O2: power-on and the reset action both end in a core that a reset made. -/
theorem resetGivesTheDrawAndClearRegisters : Obligations.ResetGivesTheDrawAndClearRegisters :=
  ⟨State.resetWith_isReset, fun s draw _ h =>
    ⟨_, step_of_resetWaiting h, CoreState.applyReset_isReset s.config _ draw⟩⟩

/-! ## The ghost state -/

/-- A word read adds mixing when a byte read came before it (R34). -/
theorem CoreState.markWordRead_mixed_iff {w : Width} (k : CoreState w) :
    k.markWordRead.mixed = true ↔ k.mixed = true ∨ k.gran = .byte := by simp

/-- A byte read adds mixing when a word read came before it (R34). -/
theorem CoreState.markByteRead_mixed_iff {w : Width} (k : CoreState w) :
    k.markByteRead.mixed = true ↔ k.mixed = true ∨ k.gran = .word := by simp

/-- STREAM's loop leaves `GRAN`; the ghost effect comes after it (R164). -/
@[simp] theorem CoreState.streamWords_gran {w : Width} (n : Nat) (k : CoreState w) : (k.streamWords n).gran = k.gran := by
  rw [CoreState.streamWords_eq]

/-- STREAM's loop leaves `MIXED`; the ghost effect comes after it (R164). -/
@[simp] theorem CoreState.streamWords_mixed {w : Width} (n : Nat) (k : CoreState w) : (k.streamWords n).mixed = k.mixed := by
  rw [CoreState.streamWords_eq]

/-- STREAM of no word leaves the core (R164, R165). -/
@[simp] theorem CoreState.stream_zero {w : Width} (k : CoreState w) : k.stream 0 = k := if_pos rfl

/-- STREAM of a word or more ends with the ghost effect of a word read (R164). -/
theorem CoreState.stream_of_pos {w : Width} {n : Nat} (hn : 1 ≤ n) (k : CoreState w) :
    k.stream n = (k.streamWords n).markWordRead := if_neg (by omega)

/-- A completing INIT initialises the core for the seed bytes it read. -/
theorem exec_init_next {abs : Bool} {len : BitVec 16} {s t : State} (h : exec (.init abs len) s = .next t) :
    ∃ seed, t = s.modify fun k => k.initialise s.config.byteMode seed := by
  obtain ⟨seed, -, ht⟩ := by simpa [Instr.wellFormed, peekedValue] using exec_cases h
  exact ⟨seed, ht⟩

/-- A completing STREAM with a buffer present runs its loop on the core. -/
theorem exec_stream_next {count : BitVec 16} {s t : State} (h : exec (.stream false count) s = .next t) :
    t = s.modify fun k => k.stream count.toNat := by
  obtain ⟨-, ht⟩ := by simpa [Instr.wellFormed, peekedValue] using exec_cases h
  exact ht

/-- NEXTB without byte mode takes the illegal-command exception (R79). -/
theorem exec_nextb_of_no_byteMode {s : State} (h : s.config.byteMode = false) :
    exec .nextb s = .next (s.takeIllegalCommand (encode .nextb) .featureAbsent) := State.runIfPresent_of_not_wf h

/-- INIT clears the ghost state. -/
theorem exec_init_ghost {abs : Bool} {len : BitVec 16} {s t : State} (h : exec (.init abs len) s = .next t) :
    t.core.gran = .none ∧ t.core.mixed = false := by
  obtain ⟨seed, rfl⟩ := exec_init_next h
  exact ⟨CoreState.clearGhost_gran _, CoreState.clearGhost_mixed _⟩

/-- ERASE clears the ghost state. -/
theorem exec_erase_ghost {s t : State} (h : exec .erase s = .next t) : t.core.gran = .none ∧ t.core.mixed = false := by
  cases h
  exact ⟨CoreState.clearGhost_gran _, CoreState.clearGhost_mixed _⟩

/-- NEXT is a word read. -/
theorem exec_next_ghost {s t : State} (h : exec .next s = .next t) :
    t.core.gran = (if s.core.gran = .none then .word else s.core.gran) ∧
    (t.core.mixed = true ↔ s.core.mixed = true ∨ s.core.gran = .byte) := by
  cases h
  exact ⟨CoreState.markWordRead_gran _, CoreState.markWordRead_mixed_iff _⟩

/-- A STREAM that emits a word is a word read. -/
theorem exec_stream_ghost {count : BitVec 16} {s t : State} (hcount : 1 ≤ count.toNat)
    (h : exec (.stream false count) s = .next t) :
    t.core.gran = (if s.core.gran = .none then .word else s.core.gran) ∧
    (t.core.mixed = true ↔ s.core.mixed = true ∨ s.core.gran = .byte) := by
  obtain rfl := exec_stream_next h
  simp [CoreState.stream_of_pos hcount]

/-- NEXTB is a byte read where byte mode is present. -/
theorem exec_nextb_ghost {s t : State} (hbyte : s.config.byteMode = true) (h : exec .nextb s = .next t) :
    t.core.gran = (if s.core.gran = .none then .byte else s.core.gran) ∧
    (t.core.mixed = true ↔ s.core.mixed = true ∨ s.core.gran = .word) := by
  rw [exec_nextb_of_byteMode hbyte] at h
  cases h
  exact ⟨CoreState.markByteRead_gran _, CoreState.markByteRead_mixed_iff _⟩

/-- A STREAM without a buffer is no read. -/
theorem exec_stream_abs_ghost {count : BitVec 16} {s t : State} (h : exec (.stream true count) s = .next t) :
    t.core.gran = s.core.gran ∧ t.core.mixed = s.core.mixed := by
  cases h
  exact ⟨rfl, rfl⟩

/-- A STREAM of no word is no read. -/
theorem exec_stream_zero_ghost {abs : Bool} {s t : State} (h : exec (.stream abs 0) s = .next t) :
    t.core.gran = s.core.gran ∧ t.core.mixed = s.core.mixed := by
  cases abs with
  | true => exact exec_stream_abs_ghost h
  | false =>
    obtain rfl := exec_stream_next h
    simp

/-- NEXTB without byte mode is no read. -/
theorem exec_nextb_absent_ghost {s t : State} (hbyte : s.config.byteMode = false) (h : exec .nextb s = .next t) :
    t.core.gran = s.core.gran ∧ t.core.mixed = s.core.mixed := by
  rw [exec_nextb_of_no_byteMode hbyte] at h
  cases h
  exact ⟨rfl, rfl⟩

/-- A PEEK is no read, present or absent. -/
theorem exec_peek_ghost {i : Instr} {s t : State} {v : Word s.config.width} (hv : peekedValue s.core.ctx i = some v)
    (h : exec i s = .next t) : t.core.gran = s.core.gran ∧ t.core.mixed = s.core.mixed := by
  obtain ⟨-, rfl⟩ | ⟨-, ⟨_, _, _, rfl, -⟩ | ⟨rfl, -⟩ | ⟨_, rfl, -⟩ | ⟨_, rfl, -⟩ | ⟨rfl, -⟩ | ⟨rfl, -⟩ | ⟨_, -, rfl⟩⟩ :=
    exec_cases h
  case inl => exact ⟨rfl, rfl⟩
  case inr.inr.inr.inr.inr.inr.inr => exact ⟨rfl, rfl⟩
  all_goals cases hv

/-- A reset clears the ghost state. -/
theorem step_reset_ghost {s t : State} {draw : Context s.config.width} {rest : List (HostAction s.config.width)}
    (hreset : s.core.pending = .reset draw :: rest) (h : step s = .next t) : t.core.gran = .none ∧ t.core.mixed = false := by
  rw [step_of_resetWaiting hreset] at h
  cases h
  exact ⟨rfl, rfl⟩

/-- Settles O44: each clause by the commands it names, and the reset action. -/
theorem ghostRecordsGranularityAndMixing : Obligations.GhostRecordsGranularityAndMixing := by
  refine ⟨fun i s t h => ⟨?clears, ?wordRead, ?byteRead, ?noRead⟩, fun _ _ _ _ hreset h => step_reset_ghost hreset h⟩
  case clears =>
    rintro (⟨abs, len, rfl⟩ | rfl)
    · exact exec_init_ghost h
    · exact exec_erase_ghost h
  case wordRead =>
    rintro (rfl | ⟨count, rfl, hcount⟩)
    · exact exec_next_ghost h
    · exact exec_stream_ghost hcount h
  case byteRead =>
    rintro rfl hbyte
    exact exec_nextb_ghost hbyte h
  case noRead =>
    rintro (⟨count, rfl⟩ | ⟨abs, rfl⟩ | ⟨rfl, hbyte⟩ | ⟨v, hv⟩)
    · exact exec_stream_abs_ghost h
    · exact exec_stream_zero_ghost h
    · exact exec_nextb_absent_ghost hbyte h
    · exact exec_peek_ghost hv h

end Sys2Proof.Machine
end

section
/-!
PROOFS of the family 20_memory.md: the two byte layouts of output words (R64, R65).
-/

namespace Sys2Proof

/-- A word is a whole number of bytes. -/
theorem Width.eight_dvd_bits (w : Width) : 8 ∣ w.bits := by
  cases w <;> decide

end Sys2Proof

namespace Sys2Proof.Machine

/-- Where each element gives `n` items, all of them give `n` times as many items as there are elements. -/
theorem length_flatMap_of_uniform {α β : Type} {f : α → List β} {n : Nat} (hf : ∀ a, (f a).length = n) (xs : List α) :
    (xs.flatMap f).length = xs.length * n := by
  simp [List.length_flatMap, hf]

/-- Where each element gives `n` items, item `j` of element `i` stands at `i * n + j`. -/
theorem getElem?_flatMap_of_uniform {α β : Type} {f : α → List β} {n j : Nat} (hf : ∀ a, (f a).length = n) (hj : j < n)
    (xs : List α) (i : Nat) : (xs.flatMap f)[i * n + j]? = xs[i]?.bind fun a => (f a)[j]? := by
  induction xs generalizing i with
  | nil => simp
  | cons x xs ih =>
    rw [List.flatMap_cons]
    cases i with
    | zero => simp [List.getElem?_append_left, hf, hj]
    | succ i =>
      have hskip : (i + 1) * n + j = (f x).length + (i * n + j) := by rw [hf, Nat.succ_mul]; omega
      rw [hskip, List.getElem?_append_right (Nat.le_add_right ..), Nat.add_sub_cancel_left, ih, List.getElem?_cons_succ]

variable {w : Width}

@[simp] theorem length_wordToLittleEndian (v : Word w) : (wordToLittleEndian v).length = w.bits / 8 := by
  simp [wordToLittleEndian]

@[simp] theorem length_wordToBigEndian (v : Word w) : (wordToBigEndian v).length = w.bits / 8 := by
  simp [wordToBigEndian]

/-- R64: the bytes of a word, least significant first. -/
theorem getElem?_wordToLittleEndian (v : Word w) {j : Nat} (hj : j < w.bits / 8) :
    (wordToLittleEndian v)[j]? = some (v.extractLsb' (8 * j) 8) := by
  simp [wordToLittleEndian, hj]

/-- R65: the bytes of a word, most significant first. -/
theorem getElem?_wordToBigEndian (v : Word w) {j : Nat} (hj : j < w.bits / 8) :
    (wordToBigEndian v)[j]? = some (v.extractLsb' (w.bits - 8 - 8 * j) 8) := by
  simp [wordToBigEndian, hj]

/-- R65: within a word the second layout is the reverse of the first, since byte `j` from the top is byte `W/8 - 1 - j`. -/
theorem wordToBigEndian_eq_reverse (v : Word w) : wordToBigEndian v = (wordToLittleEndian v).reverse := by
  refine List.ext_getElem? fun j => ?_
  by_cases hj : j < w.bits / 8
  · have hmirror : w.bits - 8 - 8 * j = 8 * (w.bits / 8 - 1 - j) := by
      have := w.eight_dvd_bits
      omega
    rw [getElem?_wordToBigEndian v hj, List.getElem?_reverse (by simpa using hj), length_wordToLittleEndian,
      getElem?_wordToLittleEndian v (by omega), hmirror]
  · rw [List.getElem?_eq_none (by simpa using hj), List.getElem?_eq_none (by simpa using hj)]

/-- Settles O59: each word gives `W/8` bytes, so the bytes of word `i` begin at `i * (W/8)`, and what they are is said
word by word. -/
theorem endianCodecLayouts : Obligations.EndianCodecLayouts := by
  intro w words
  refine ⟨length_flatMap_of_uniform length_wordToLittleEndian words, length_flatMap_of_uniform length_wordToBigEndian words,
    fun i j v hv hj => ⟨?little, ?big⟩, wordToBigEndian_eq_reverse⟩
  case little =>
    rw [toLittleEndian, getElem?_flatMap_of_uniform length_wordToLittleEndian hj, hv, Option.bind_some,
      getElem?_wordToLittleEndian v hj]
  case big =>
    rw [toBigEndian, getElem?_flatMap_of_uniform length_wordToBigEndian hj, hv, Option.bind_some,
      getElem?_wordToBigEndian v hj]

end Sys2Proof.Machine
end

section
/-!
PROOFS of the family 30_encoding.md: which words raise which cause of the illegal-command exception (R77 to R79).
-/

namespace Sys2Proof

variable {cfg : Config} {v : CommandWord}

/-! ## Reserved opcodes and absent commands -/

/-- R77: the first check of the decoder, whatever the word's other fields hold. -/
theorem decode_of_reservedOpcode (hop : opField v = 0 ∨ 7 ≤ opField v) : decode cfg v = .error .unassignedOpcode :=
  if_pos hop

/-- R79: NEXTB without byte mode, whatever the word's other fields hold. -/
theorem decode_of_nextb_absent (hop : opField v = 4) (hbyte : cfg.byteMode = false) :
    decode cfg v = .error .featureAbsent := by
  simp [decode, hop, hbyte]

/-- R79: any PEEK without `PEEK_EN`, whatever the word's other fields hold, the reserved selector included. -/
theorem decode_of_peek_absent (hop : opField v = 6) (hpeek : cfg.peekEn = false) : decode cfg v = .error .featureAbsent := by
  simp [decode, hop, hpeek]

/-- R79: PEEK.BIDX without byte mode; where `PEEK_EN` is 0 too, the check before gives the same cause. -/
theorem decode_of_peekBidx_absent (hop : opField v = 6) (hsel : selField v = 6) (hbyte : cfg.byteMode = false) :
    decode cfg v = .error .featureAbsent := by
  cases hpeek : cfg.peekEn with
  | false => exact decode_of_peek_absent hop hpeek
  | true => simp [decode, hop, hsel, hbyte, hpeek]

/-! ## The words of a command that the configuration has -/

/-- NEXTB, the one command of opcode 4, needs byte mode. -/
theorem byteMode_of_nextb_present {r : Row} (hpick : pickRow (opField v) (selField v) = some r)
    (hwf : (rowInstr v r).wellFormed cfg = true) (hop : opField v = 4) : cfg.byteMode = true := by
  obtain ⟨-, hnextb, -, -⟩ := pickRow_facts
  obtain rfl : r = .nextb := Option.some.inj (hpick.symm.trans ((hnextb _ _).2 hop))
  exact hwf

/-- Every command of opcode 6 needs `PEEK_EN`. -/
theorem peekEn_of_peek_present {r : Row} (hpick : pickRow (opField v) (selField v) = some r)
    (hwf : (rowInstr v r).wellFormed cfg = true) (hop : opField v = 6) : cfg.peekEn = true := by
  obtain ⟨-, -, -, hpeek⟩ := pickRow_facts
  obtain rfl | rfl | rfl | rfl | rfl | rfl | rfl := (hpeek _ _ _ hpick).1 hop
  iterate 6 exact hwf
  exact (Bool.and_eq_true_iff.1 hwf).1

/-- PEEK.BIDX needs byte mode as well. -/
theorem byteMode_of_peekBidx_present {r : Row} (hpick : pickRow (opField v) (selField v) = some r)
    (hwf : (rowInstr v r).wellFormed cfg = true) (hop : opField v = 6) (hsel : selField v = 6) : cfg.byteMode = true := by
  obtain ⟨-, -, hbidx, -⟩ := pickRow_facts
  obtain rfl : r = .peekBidx := Option.some.inj (hpick.symm.trans ((hbidx _ _).2 ⟨hop, hsel⟩))
  exact (Bool.and_eq_true_iff.1 hwf).2

/-- A word that picks a row whose command the configuration has passes the checks of R77 and R79: the row's match and mask
alone decide it (R75). -/
theorem decode_of_present {r : Row} (hpick : pickRow (opField v) (selField v) = some r)
    (hwf : (rowInstr v r).wellFormed cfg = true) :
    decode cfg v = if selectsRow v r then .ok (rowInstr v r) else .error .reservedField := by
  have hassigned : ¬(opField v = 0 ∨ 7 ≤ opField v) := pickRow_facts.1 _ _ _ hpick
  have hnextb : ¬(opField v = 4 ∧ cfg.byteMode = false) := fun ⟨hop, hbyte⟩ =>
    Bool.eq_false_iff.1 hbyte (byteMode_of_nextb_present hpick hwf hop)
  have hpeek : ¬(opField v = 6 ∧ cfg.peekEn = false) := fun ⟨hop, hpeek⟩ =>
    Bool.eq_false_iff.1 hpeek (peekEn_of_peek_present hpick hwf hop)
  have hbidx : ¬(opField v = 6 ∧ selField v = 6 ∧ cfg.byteMode = false) := fun ⟨hop, hsel, hbyte⟩ =>
    Bool.eq_false_iff.1 hbyte (byteMode_of_peekBidx_present hpick hwf hop hsel)
  simp only [decode, if_neg hassigned, if_neg hnextb, if_neg hpeek, if_neg hbidx, hpick]

end Sys2Proof

namespace Sys2Proof.Machine

/-- A step whose waiting command word decodes to no command takes the exception with that word and the decoder's cause, the
host action taken off the list (R75, R213). -/
theorem step_of_decode_error {s : State} {v : CommandWord} {rest : List (HostAction s.config.width)} {cause : Cause}
    (hwait : s.commandWaiting v rest) (hdecode : decode s.config v = .error cause) :
    step s = .next ((s.withPending rest).takeIllegalCommand v cause) := by
  have hdecode' : decode (s.withPending rest).config v = .error cause := hdecode
  rw [step_of_commandWaiting hwait, submit, hdecode']

/-- Settles O8: a reserved opcode fails the decoder's first check. -/
theorem reservedOpcodeRaisesCauseOne : Obligations.ReservedOpcodeRaisesCauseOne :=
  fun _ _ _ hwait hop => step_of_decode_error hwait (decode_of_reservedOpcode hop)

/-- Settles O9: each of the three absences by its check; 64-bit words come without byte mode (R4). -/
theorem absentCommandRaisesCauseThree : Obligations.AbsentCommandRaisesCauseThree := by
  rintro s v rest hwait (⟨hop, hwidth | hbyte⟩ | ⟨hop, hpeek⟩ | ⟨hop, hsel, hbyte⟩)
  · have hbyte : s.config.byteMode = false := Bool.eq_false_iff.2 fun h => by simp [Config.width_of_byteMode h] at hwidth
    exact step_of_decode_error hwait (decode_of_nextb_absent hop hbyte)
  · exact step_of_decode_error hwait (decode_of_nextb_absent hop hbyte)
  · exact step_of_decode_error hwait (decode_of_peek_absent hop hpeek)
  · exact step_of_decode_error hwait (decode_of_peekBidx_absent hop hsel hbyte)

/-- Settles O10: a word of a present command that differs from the row's match under its mask does not select the row. -/
theorem reservedFieldRaisesCauseTwo : Obligations.ReservedFieldRaisesCauseTwo := by
  intro s v rest r hwait hpick hwf hbits
  have hselects : ¬selectsRow v r = true := fun h => hbits (beq_iff_eq.1 h)
  exact step_of_decode_error hwait ((decode_of_present hpick hwf).trans (if_neg hselects))

end Sys2Proof.Machine
end

section
/-!
PROOFS of the family 40_seed_and_key.md: the two mixing networks (R113, R114), the KeyScramble (R112, R115 to R118), the
SeedLoad (R103, R104) and the whole of INIT (R100 to R102, R108).
-/

namespace Sys2Proof

/-- A word is the word of its opcode, `ABS` and `IMM16` alone exactly when its two other fields are zero (R71, R78). -/
theorem eq_encodeFields_iff {v : CommandWord} {op : BitVec 4} (hop : opField v = op) :
    v = encodeFields op (absField v) 0 0 (immField v) ↔ selField v = 0 ∧ idxField v = 0 := by
  constructor
  · intro h
    obtain ⟨-, -, hsel, hidx, -⟩ := fields_encodeFields op (absField v) 0 0 (immField v)
    rw [← h] at hsel hidx
    exact ⟨hsel, hidx⟩
  · rintro ⟨hsel, hidx⟩
    have hfields := encodeFields_fields v
    rw [hop, hsel, hidx] at hfields
    exact hfields.symm

/-- R100: the words of opcode 1 that are INIT, and the cause of the others (R78). -/
theorem decode_of_opcode_init (cfg : Config) {v : CommandWord} (hop : opField v = 1) :
    decode cfg v =
      if selField v = 0 ∧ idxField v = 0 then .ok (.init (absField v) (immField v)) else .error .reservedField := by
  have hpick : pickRow (opField v) (selField v) = some .init := by rw [hop]; rfl
  have hselects : selectsRow v .init = true ↔ selField v = 0 ∧ idxField v = 0 :=
    (selectsRow_iff v .init).trans (eq_encodeFields_iff hop)
  rw [decode_of_present hpick rfl]
  simp only [hselects]
  rfl

end Sys2Proof

namespace Sys2Proof.Machine

/-! ## The mixing networks -/

/-- Line `j` of `Mix32` on the eight registers (R113): register `j` first, whose new value register `j + 3` takes in. -/
def mixLine32 (j : Fin 8) (r : Fin 8 → BitVec 32) : Fin 8 → BitVec 32 :=
  let x := r j ^^^ mixShift32 j (r (j + 1))
  fun m => if m = j then x else if m = j + 3 then r m + x else if m = j + 1 then r m + r (j + 2) else r m

/-- Line `j` of `Mix64` on the eight registers (R114): register `j` first, whose new value register `j + 7` takes in. -/
def mixLine64 (j : Fin 8) (r : Fin 8 → BitVec 64) : Fin 8 → BitVec 64 :=
  let x := r j - r (j + 4)
  fun m => if m = j then x else if m = j + 5 then r m ^^^ mixShift64 j (r (j + 7)) else if m = j + 7 then r m + x else r m

/-- The registers after the first `n` lines of a network, each line on what the line before it left. -/
def afterLines {α : Type} (line : Fin 8 → α → α) (r : α) : Nat → α
  | 0 => r
  | n + 1 => line (Fin.ofNat 8 n) (afterLines line r n)

theorem afterLines_succ {α : Type} (line : Fin 8 → α → α) (r : α) (j : Fin 8) :
    afterLines line r (j.val + 1) = line j (afterLines line r j.val) := by
  rw [afterLines, Fin.ofNat_val_eq_self]

/-- R113: `Mix32` is its eight lines in order, register by register. -/
theorem afterLines_mixLine32 (k : KRegs .w32) : afterLines mixLine32 k.get 8 = (mix .w32 k).get := by
  funext m
  fin_cases m <;> rfl

/-- R114: `Mix64` is its eight lines in order, register by register. -/
theorem afterLines_mixLine64 (k : KRegs .w64) : afterLines mixLine64 k.get 8 = (mix .w64 k).get := by
  funext m
  fin_cases m <;> rfl

/-- A line of `Mix32` updates three different registers and keeps the others. -/
theorem mixLine32_updates (j : Fin 8) (r : Fin 8 → BitVec 32) :
    mixLine32 j r j = r j ^^^ mixShift32 j (r (j + 1)) ∧
    mixLine32 j r (j + 3) = r (j + 3) + mixLine32 j r j ∧
    mixLine32 j r (j + 1) = r (j + 1) + r (j + 2) ∧
    ∀ m, m ≠ j → m ≠ j + 1 → m ≠ j + 3 → mixLine32 j r m = r m := by
  refine ⟨?_, ?_, ?_, fun m h0 h1 h3 => ?_⟩
  · simp [mixLine32]
  · simp [mixLine32]
  · simp [mixLine32]
  · simp [mixLine32, h0, h1, h3]

/-- A line of `Mix64` updates three different registers and keeps the others. -/
theorem mixLine64_updates (j : Fin 8) (r : Fin 8 → BitVec 64) :
    mixLine64 j r j = r j - r (j + 4) ∧
    mixLine64 j r (j + 5) = r (j + 5) ^^^ mixShift64 j (r (j + 7)) ∧
    mixLine64 j r (j + 7) = r (j + 7) + mixLine64 j r j ∧
    ∀ m, m ≠ j → m ≠ j + 5 → m ≠ j + 7 → mixLine64 j r m = r m := by
  refine ⟨?_, ?_, ?_, fun m h0 h5 h7 => ?_⟩
  · simp [mixLine64]
  · simp [mixLine64]
  · simp [mixLine64]
  · simp [mixLine64, h0, h5, h7]

/-- Settles O26: the registers between the lines are those after the first `j` lines, and line `j` is what comes next. -/
theorem mixNetworksFollowTheirLines : Obligations.MixNetworksFollowTheirLines := by
  refine ⟨fun k => ⟨afterLines mixLine32 k.get, rfl, afterLines_mixLine32 k, fun j => ?_⟩,
    fun k => ⟨afterLines mixLine64 k.get, rfl, afterLines_mixLine64 k, fun j => ?_⟩⟩
  · rw [afterLines_succ]
    exact mixLine32_updates j _
  · rw [afterLines_succ]
    exact mixLine64_updates j _

/-! ## The KeyScramble -/

section Passes

variable {w : Width}

/-- A run of the scrambler whose step `n` stores its new registers as block `n`, which is what the two passes have in common
(R116, R117). -/
def StoresInOrder (S : Nat → Scramble w) : Prop := ∀ n, (S (n + 1)).mem = storeBlock (S n).mem n (S (n + 1)).k

theorem Scramble.blocks1_storesInOrder (res : Bank w) (s : Scramble w) : StoresInOrder fun n => s.blocks1 res n := fun _ => rfl

theorem Scramble.blocks2_storesInOrder (s : Scramble w) : StoresInOrder fun n => s.blocks2 n := fun _ => rfl

/-- The first `n` steps leave the blocks from `n` on. -/
theorem StoresInOrder.blockOf_later {S : Nat → Scramble w} (hS : StoresInOrder S) {n j : Nat} (hn : n ≤ j) (hj : j < 32) :
    blockOf (S n).mem j = blockOf (S 0).mem j := by
  induction n with
  | zero => rfl
  | succ n ih => rw [hS n, blockOf_storeBlock_other (by omega) hj (by omega), ih (by omega)]

/-- The steps after step `j` leave the block that it stored. -/
theorem StoresInOrder.blockOf_stored {S : Nat → Scramble w} (hS : StoresInOrder S) {n j : Nat} (hj : j < n) (hn : n ≤ 32) :
    blockOf (S n).mem j = (S (j + 1)).k := by
  induction n with
  | zero => omega
  | succ n ih =>
    rw [hS n]
    by_cases h : j = n
    · subst h
      exact blockOf_storeBlock (by omega) _ _
    · rw [blockOf_storeBlock_other (by omega) (by omega) h, ih (by omega) (by omega)]

/-- R116: pass 1 takes block `n` from `RES`. -/
theorem Scramble.blocks1_succ_k (res : Bank w) (n : Nat) (s : Scramble w) :
    (s.blocks1 res (n + 1)).k = mix w ((s.blocks1 res n).k.add (blockOf res n)) := rfl

/-- R117: pass 2 takes block `n` from `MEM` as it was before the pass. -/
theorem Scramble.blocks2_succ_k {n : Nat} (hn : n < 32) (s : Scramble w) :
    (s.blocks2 (n + 1)).k = mix w ((s.blocks2 n).k.add (blockOf s.mem n)) := by
  have hblock : blockOf (s.blocks2 n).mem n = blockOf s.mem n := s.blocks2_storesInOrder.blockOf_later le_rfl hn
  rw [← hblock]
  rfl

/-- The scrambler after pass 1 (R116). -/
def Context.pass1 (x : Context w) : Scramble w := (⟨goldenMixed w, x.mem⟩ : Scramble w).blocks1 x.res 32

/-- The working registers after the first `n` blocks of both passes, 32 of them in each (R118). -/
def Context.workingRegs (x : Context w) (n : Nat) : KRegs w :=
  if n ≤ 32 then ((⟨goldenMixed w, x.mem⟩ : Scramble w).blocks1 x.res n).k else (x.pass1.blocks2 (n - 32)).k

theorem Context.workingRegs_of_le {n : Nat} (hn : n ≤ 32) (x : Context w) :
    x.workingRegs n = ((⟨goldenMixed w, x.mem⟩ : Scramble w).blocks1 x.res n).k := if_pos hn

/-- Pass 2 goes on with the registers that pass 1 left (R118). -/
theorem Context.workingRegs_add (n : Nat) (x : Context w) : x.workingRegs (32 + n) = (x.pass1.blocks2 n).k := by
  cases n with
  | zero => rfl
  | succ n => rw [Context.workingRegs, if_neg (by omega), Nat.add_sub_cancel_left]

/-- `MEM` after the scramble is `MEM` after pass 2. -/
theorem Context.keyScramble_mem_eq_pass2 (x : Context w) : x.keyScramble.mem = (x.pass1.blocks2 32).mem := x.keyScramble_mem

/-- The scramble writes `MEM` alone. -/
theorem Context.keyScramble_frame (x : Context w) : x.keyScramble = { x with mem := x.keyScramble.mem } := by
  rw [Context.keyScramble]

end Passes

/-- Settles O25: one sequence of working registers through both passes, each of which stores its registers in block order. -/
theorem keyScrambleCarriesRegistersThroughBothPasses : Obligations.KeyScrambleCarriesRegistersThroughBothPasses := by
  refine ⟨rfl, rfl, fun w x => ⟨x.workingRegs, x.pass1.mem, rfl, fun j hj => ?adds1, fun j hj => ?stores1, fun j hj => ?adds2,
    fun j hj => ?stores2, x.keyScramble_frame⟩⟩
  case adds1 =>
    rw [x.workingRegs_of_le hj, x.workingRegs_of_le hj.le, Scramble.blocks1_succ_k]
  case stores1 =>
    rw [x.workingRegs_of_le hj]
    exact (Scramble.blocks1_storesInOrder x.res _).blockOf_stored hj le_rfl
  case adds2 =>
    rw [show 33 + j = 32 + (j + 1) by omega, x.workingRegs_add, x.workingRegs_add, Scramble.blocks2_succ_k hj]
  case stores2 =>
    rw [show 33 + j = 32 + (j + 1) by omega, x.workingRegs_add, x.keyScramble_mem_eq_pass2]
    exact x.pass1.blocks2_storesInOrder.blockOf_stored hj le_rfl

/-! ## The SeedLoad -/

/-- An element with a seed byte is that byte, zero-extended (R103). -/
theorem seedLoad_read_of_byte {w : Width} {seed : List Byte} {i : Index} {byte : Byte} (h : seed[i.toNat]? = some byte) :
    (seedLoad w seed).read i = byte.setWidth w.bits := by
  simp [seedLoad, Bank.read, h]

/-- An element beyond the seed is zero (R103). -/
theorem seedLoad_read_of_length_le {w : Width} {seed : List Byte} {i : Index} (h : seed.length ≤ i.toNat) :
    (seedLoad w seed).read i = 0 := by
  simp [seedLoad, Bank.read, List.getElem?_eq_none h]

/-- Settles O23: the seed bytes read are the buffer's, in order. -/
theorem seedLoadTakesBytesValueWise : Obligations.SeedLoadTakesBytesValueWise := by
  intro w buf l seed hseed i
  obtain ⟨hlength, hread⟩ := Memory.readRange_eq_some.1 hseed
  constructor
  · intro hi
    obtain ⟨byte, hbyte⟩ : ∃ byte, seed[i.toNat]? = some byte := ⟨_, List.getElem?_eq_getElem (by omega)⟩
    have hbuf := hread i.toNat hi
    rw [Nat.zero_add] at hbuf
    exact ⟨byte, hbuf.trans hbyte, seedLoad_read_of_byte hbyte⟩
  · intro hi
    exact seedLoad_read_of_length_le (by omega)

/-! ## INIT -/

/-- R101: the context that the KeyScramble of an INIT starts from. -/
theorem Context.keyed_eq {w : Width} (seed : List Byte) (x : Context w) :
    x.keyed seed = ({ x with res := seedLoad w seed, a := 0, b := 0, c := 0 } : Context w).keyScramble := by
  rw [Context.keyed, Context.clearAccumulators]

/-- A buffer that holds the seed gives its bytes. -/
theorem CoreState.holdsSeed.seedBytes_eq {w : Width} {k : CoreState w} {abs : Bool} {len : BitVec 16}
    (h : k.holdsSeed abs len) : ∃ seed, seedBytes k.seedBuf (effectiveLength abs len) = some seed :=
  Memory.readRange_isSome fun i hi => by simpa using h i hi

/-- An INIT of effective length 0 reads no byte, so that it completes whatever buffer is bound. -/
theorem exec_init_of_no_byte {abs : Bool} {len : BitVec 16} (h : effectiveLength abs len = 0) (s : State) :
    exec (.init abs len) s = .next (s.modify fun k => k.initialise s.config.byteMode []) := by
  rw [exec, execInit, h]
  rfl

/-- Settles O18: the decoder on opcode 1, and INIT's statements for the bytes that the buffer gives. -/
theorem initRunsItsStatementsInOrder : Obligations.InitRunsItsStatementsInOrder := by
  refine ⟨fun cfg v hop => decode_of_opcode_init cfg hop, fun abs len s hholds => ⟨rfl, ?_⟩⟩
  obtain ⟨seed, hseed⟩ := hholds.seedBytes_eq
  refine ⟨seed, hseed, ?_⟩
  rw [exec, execInit_of_seed hseed, Context.initialise_eq, Context.shuffle_bidx, Context.keyed_bidx, Context.keyed_eq]

/-- Settles O21: an absent seed and a zero-length seed both have effective length 0. -/
theorem absentSeedIsTheZeroLengthSeed : Obligations.AbsentSeedIsTheZeroLengthSeed := by
  intro len s
  have habsent := exec_init_of_no_byte (abs := true) (len := len) rfl s
  refine ⟨habsent, habsent.trans (exec_init_of_no_byte rfl s).symm, habsent.trans (exec_init_of_no_byte rfl s).symm, fun i => ?_⟩
  exact seedLoad_read_of_length_le (Nat.zero_le _)

end Sys2Proof.Machine
end

section
/-!
PROOFS of the family 41_permutation.md: the shift expressions and the index fields (R131 to R133), what a micro-step writes
(R134), and the Shuffle as the counter and 256 micro-steps (R130).
-/

namespace Sys2Proof.Machine

variable {w : Width}

/-! ## The index fields -/

/-- R133: the 8-bit field above bit `start` as a number. -/
theorem extractLsb'_eight_toNat {n : Nat} (start : Nat) (x : BitVec n) :
    (x.extractLsb' start 8).toNat = x.toNat / 2 ^ start % 256 := by
  rw [BitVec.extractLsb'_toNat, Nat.shiftRight_eq_div_pow]

/-- Settles O29: the shift expressions are the rows of `aMix`, and the index fields are 8-bit fields of a word. -/
theorem shiftExpressionsAndIndexFields : Obligations.ShiftExpressionsAndIndexFields :=
  ⟨fun _ => ⟨rfl, rfl, rfl, rfl⟩, fun _ => ⟨rfl, rfl, rfl, rfl⟩,
    fun x => ⟨extractLsb'_eight_toNat 2 x, extractLsb'_eight_toNat 10 x⟩,
    fun x => ⟨extractLsb'_eight_toNat 3 x, extractLsb'_eight_toNat 11 x⟩⟩

/-! ## The micro-step -/

/-- R134: the mirror element is in the other half, at the same place: its index differs in the top bit alone. -/
theorem mirror_eq_xor : ∀ i : Index, mirror i = i ^^^ 0x80 := by decide

/-- R134: the sub-step number `k = i mod 4`. -/
theorem subStep_eq_mod (i : Index) : subStep i = Fin.ofNat 4 (i.toNat % 4) :=
  Fin.ext (Nat.mod_mod _ _).symm

/-- R134: the accumulator `a` takes in the mirror element. -/
theorem Context.microStep_a (i : Index) (s : Context w) :
    (s.microStep i).a = aMix w (Fin.ofNat 4 (i.toNat % 4)) s.a + s.mem.read (i ^^^ 0x80) := by
  rw [← subStep_eq_mod, ← mirror_eq_xor]
  rfl

/-- R134: the new `MEM[i]`, the first indirect read seeing `MEM` as it was before the step. -/
theorem Context.microStep_mem_self (i : Index) (s : Context w) :
    (s.microStep i).mem.read i = s.mem.read (idx1 w (s.mem.read i)) + (s.microStep i).a + s.b :=
  Bank.read_write_same _ _ _

/-- `MEM` after a micro-step: the new element and the old ones. -/
theorem Context.microStep_mem_read (i j : Index) (s : Context w) :
    (s.microStep i).mem.read j = if j = i then (s.microStep i).mem.read i else s.mem.read j := by
  rw [Context.microStep_mem_self]
  exact Bank.read_write _ _ _ _

/-- R134: the new `b`, the second indirect read by the new `MEM[i]` in `MEM` as the step leaves it (R137). -/
theorem Context.microStep_b (i : Index) (s : Context w) :
    (s.microStep i).b = (s.microStep i).mem.read (idx2 w ((s.microStep i).mem.read i)) + s.mem.read i := by
  rw [Context.microStep_mem_self]
  rfl

/-- Settles O30: the formulas in their order, `a`, then `MEM[i]`, then `b`, whose read of `MEM` sees the new `MEM[i]`. -/
theorem microStepFollowsItsFormulas : Obligations.MicroStepFollowsItsFormulas := by
  intro w i s x a y b t
  have ha : t.a = a := s.microStep_a i
  have hy : t.mem.read i = y := by rw [s.microStep_mem_self i, ha]
  have hb : t.b = b := by rw [s.microStep_b i, s.microStep_mem_read, hy]
  exact ⟨ha, hb, s.microStep_c i, s.microStep_cur i, s.microStep_bidx i, hy, (s.microStep_res_self i).trans hb,
    fun j hj => ⟨s.microStep_mem_other hj, s.microStep_res_other hj⟩⟩

/-! ## The Shuffle -/

/-- R130: a Shuffle ends with what micro-step `i` wrote in `RES[i]`, the `b` of that micro-step. -/
theorem Context.shuffle_res_read {i : Nat} (hi : i < 256) (x : Context w) :
    x.shuffle.res.read (BitVec.ofNat 8 i) = (x.countRound.microSteps (i + 1)).b := by
  rw [Context.shuffle_eq, (Context.microSteps_keep hi le_rfl _).2, Context.microSteps_succ, Context.microStep_res_self]

/-- R130: a Shuffle reads no element of `RES`, writes every one, and neither reads nor writes `CUR` and `BIDX`. -/
theorem Context.shuffle_with (x : Context w) (res : Bank w) (cur : Index) (bidx : BitVec 2) :
    ({ x with res := res, cur := cur, bidx := bidx } : Context w).shuffle = { x.shuffle with cur := cur, bidx := bidx } := by
  obtain ⟨res', hrun, hres⟩ := x.countRound.microSteps_with 256 res cur bidx
  have hres' : res' = (x.countRound.microSteps 256).res := by
    refine Bank.ext fun i => ?_
    have hread := hres i.toNat i.isLt i.isLt
    rwa [BitVec.ofNat_toNat, BitVec.setWidth_eq] at hread
  rw [hres'] at hrun
  rw [Context.shuffle_eq, Context.shuffle_eq]
  exact hrun

/-- Settles O28: the chain is the runs of the first `n` micro-steps after the round counter's part. -/
theorem shuffleRunsTheCounterThenTheMicroSteps : Obligations.ShuffleRunsTheCounterThenTheMicroSteps :=
  fun _ x => ⟨fun n => x.countRound.microSteps n, x.countRound.microSteps_zero, fun i _ => x.countRound.microSteps_succ i,
    x.shuffle_eq, fun _ hi => x.shuffle_res_read hi, x.shuffle_with⟩

end Sys2Proof.Machine
end

section
/-!
PROOFS of the family 42_stream.md: the words of NEXT, STREAM and NEXTB, what each returns and how it moves the cursor (R162,
R164, R165, R171, R172), and that the word reads pass `BIDX` by (R173).
-/

namespace Sys2Proof

variable {cfg : Config} {v : CommandWord}

/-! ## The words of the stream commands -/

/-- A word that picks a row whose command the configuration has is that command if it is the command's own word, and otherwise
has a reserved field set (R75, R78). -/
theorem decode_of_present_eq_encode {r : Row} (hpick : pickRow (opField v) (selField v) = some r)
    (hwf : (rowInstr v r).wellFormed cfg = true) :
    decode cfg v = if v = encode (rowInstr v r) then .ok (rowInstr v r) else .error .reservedField := by
  rw [decode_of_present hpick hwf]
  simp only [selectsRow_iff]

/-- R162: the one word of opcode 2 that is NEXT, and the cause of the others. -/
theorem decode_of_opcode_next (hop : opField v = 2) :
    decode cfg v = if v = 0x00000002#32 then .ok .next else .error .reservedField := by
  have hpick : pickRow (opField v) (selField v) = some .next := by rw [hop]; rfl
  exact decode_of_present_eq_encode hpick rfl

/-- R164: the words of opcode 3 that are STREAM, and the cause of the others. -/
theorem decode_of_opcode_stream (hop : opField v = 3) :
    decode cfg v =
      if selField v = 0 ∧ idxField v = 0 then .ok (.stream (absField v) (immField v)) else .error .reservedField := by
  have hpick : pickRow (opField v) (selField v) = some .stream := by rw [hop]; rfl
  rw [decode_of_present_eq_encode hpick rfl]
  simp only [rowInstr, encode, eq_encodeFields_iff hop]

/-- R170, R171: the one word of opcode 4 that is NEXTB, and the cause of the others. -/
theorem decode_of_opcode_nextb (hop : opField v = 4) :
    decode cfg v = if cfg.byteMode = false then .error .featureAbsent
      else if v = 0x00000004#32 then .ok .nextb else .error .reservedField := by
  cases hbyte : cfg.byteMode with
  | false => exact decode_of_nextb_absent hop hbyte
  | true =>
    have hpick : pickRow (opField v) (selField v) = some .nextb := by rw [hop]; rfl
    exact decode_of_present_eq_encode hpick hbyte

end Sys2Proof

namespace Sys2Proof.Machine

variable {w : Width}

/-! ## The byte index under a word read -/

/-- The context with another byte index. -/
def Context.withBidx (x : Context w) (n : BitVec 2) : Context w := { x with bidx := n }

/-- The core with another byte index. -/
def CoreState.withBidx (k : CoreState w) (n : BitVec 2) : CoreState w := { k with ctx := k.ctx.withBidx n }

/-- A Shuffle passes `BIDX` by (R130). -/
theorem Context.shuffle_withBidx (x : Context w) (n : BitVec 2) : (x.withBidx n).shuffle = x.shuffle.withBidx n :=
  (x.shuffle_with x.res x.cur n).trans (congrArg (·.withBidx n) (Context.set_cur_self x.shuffle_cur))

/-- Advance passes `BIDX` by (R161). -/
theorem Context.advance_withBidx (x : Context w) (n : BitVec 2) : (x.withBidx n).advance = x.advance.withBidx n := by
  by_cases h : x.cur = 0
  · rw [Context.advance_of_zero h, Context.advance_of_zero (x := x.withBidx n) h, Context.shuffle_withBidx]
    rfl
  · rw [Context.advance_of_ne h, Context.advance_of_ne (x := x.withBidx n) h]
    rfl

/-- NEXT passes `BIDX` by (R173). -/
theorem CoreState.nextWord_withBidx (k : CoreState w) (n : BitVec 2) : (k.withBidx n).nextWord = k.nextWord.withBidx n := by
  have hctx : (k.withBidx n).ctx.advance = k.ctx.advance.withBidx n := k.ctx.advance_withBidx n
  rw [CoreState.nextWord, hctx]
  rfl

/-- A turn of STREAM's loop passes `BIDX` by (R173). -/
theorem CoreState.streamWord_withBidx (i : Nat) (k : CoreState w) (n : BitVec 2) :
    (k.withBidx n).streamWord i = (k.streamWord i).withBidx n := by
  have hctx : (k.withBidx n).ctx.advance = k.ctx.advance.withBidx n := k.ctx.advance_withBidx n
  rw [CoreState.streamWord, hctx]
  rfl

/-- STREAM's loop passes `BIDX` by (R173). -/
theorem CoreState.streamWords_withBidx (m : Nat) (k : CoreState w) (n : BitVec 2) :
    (k.withBidx n).streamWords m = (k.streamWords m).withBidx n := by
  induction m with
  | zero => rfl
  | succ m ih => rw [CoreState.streamWords, ih, CoreState.streamWord_withBidx, CoreState.streamWords]

/-- STREAM passes `BIDX` by (R173). -/
theorem CoreState.stream_withBidx (m : Nat) (k : CoreState w) (n : BitVec 2) :
    (k.withBidx n).stream m = (k.stream m).withBidx n := by
  cases m with
  | zero => rw [CoreState.stream_zero, CoreState.stream_zero]
  | succ m =>
    rw [CoreState.stream_of_pos m.succ_pos, CoreState.stream_of_pos m.succ_pos, CoreState.streamWords_withBidx]
    rfl

/-- An operation that passes `BIDX` by leaves it: run with the index already there, it ends with that index. -/
theorem bidx_eq_of_withBidx {f : CoreState w → CoreState w} (hf : ∀ k n, f (k.withBidx n) = (f k).withBidx n)
    (k : CoreState w) : (f k).ctx.bidx = k.ctx.bidx := congrArg (·.ctx.bidx) (hf k k.ctx.bidx)

/-- Equal cores make equal outcomes. -/
theorem next_congr {s : State} {k l : CoreState s.config.width} (h : k = l) :
    (.next { s with core := k } : Host.Outcome State Fault Refusal) = .next { s with core := l } := by rw [h]

/-! ## NEXT -/

/-- NEXT completes on every state. -/
theorem exec_next (s : State) : exec .next s = .next { s with core := s.core.nextWord } := rfl

/-- What NEXT does to a core (R162). -/
theorem CoreState.nextWord_eq (k : CoreState w) :
    k.nextWord = { k with
      out := k.ctx.res.read k.ctx.cur
      ctx := k.ctx.advance
      mixed := k.mixed || decide (k.gran = .byte)
      gran := if k.gran = .none then .word else k.gran } := rfl

/-- Settles O34: the decoder on opcode 2, and NEXT with Advance's two cases. -/
theorem nextReturnsTheWordAndAdvances : Obligations.NextReturnsTheWordAndAdvances := by
  refine ⟨fun _ _ hop => decode_of_opcode_next hop, fun s => ⟨fun hcur => ?_, fun hcur => ?_⟩⟩
  · rw [exec_next, CoreState.nextWord_eq, Context.advance_of_ne hcur]
  · rw [exec_next, CoreState.nextWord_eq, Context.advance_of_zero hcur, hcur]

/-! ## STREAM -/

/-- STREAM without a buffer does nothing (R165). -/
theorem exec_stream_absent (count : BitVec 16) (s : State) : exec (.stream true count) s = .next s := rfl

/-- STREAM of no word does nothing, with a buffer or without (R165). -/
theorem exec_stream_zero (abs : Bool) (s : State) : exec (.stream abs 0) s = .next s := by
  cases abs with
  | true => exact exec_stream_absent 0 s
  | false =>
    have hslots : (0 : BitVec 16).toNat ≤ s.core.outBuf.slots := Nat.zero_le _
    exact (exec_stream_of_slots hslots).trans (next_congr s.core.stream_zero)

/-- Settles O36: no buffer, and no word. -/
theorem emptyStreamChangesNothing : Obligations.EmptyStreamChangesNothing := ⟨exec_stream_absent, exec_stream_zero⟩

/-- Settles O35: the decoder on opcode 3, and the buffer and cursor that STREAM's loop leaves. -/
theorem streamWritesCountWords : Obligations.StreamWritesCountWords := by
  refine ⟨fun _ _ hop => decode_of_opcode_stream hop, fun count s => ⟨exec_stream_absent count s, fun hslots =>
    ⟨(s.core.streamWords count.toNat).outBuf, ?_, s.core.streamWords_slots _, fun i => ⟨fun hi => ?_, fun hi => ?_⟩⟩⟩⟩
  · rw [exec_stream_of_slots hslots, CoreState.stream_eq]
  · rw [CoreState.streamWords_read, if_pos hi]
  · rw [CoreState.streamWords_read, if_neg (Nat.not_lt.2 hi)]

/-! ## NEXTB -/

/-- Before byte 3 NEXTB moves within the word (R171). -/
theorem Context.advanceByte_of_ne {x : Context w} (h : x.bidx ≠ 3) : x.advanceByte = { x with bidx := x.bidx + 1 } := if_neg h

/-- After byte 3 NEXTB goes to byte 0 of the next word (R171). -/
theorem Context.advanceByte_of_last {x : Context w} (h : x.bidx = 3) : x.advanceByte = x.advance.withBidx 0 :=
  (if_pos h).trans (x.advance_withBidx 0)

/-- What NEXTB does to a core (R171). -/
theorem CoreState.nextByte_eq (k : CoreState w) :
    k.nextByte = { k with
      out := (byteOf k.ctx.currentWord k.ctx.bidx).setWidth _
      ctx := k.ctx.advanceByte
      mixed := k.mixed || decide (k.gran = .word)
      gran := if k.gran = .none then .byte else k.gran } := rfl

/-- Settles O41: the decoder on opcode 4, and NEXTB byte by byte, after byte 3 with Advance's two cases. -/
theorem nextbReturnsTheByteAndAdvances : Obligations.NextbReturnsTheByteAndAdvances := by
  refine ⟨fun _ _ hop => decode_of_opcode_nextb hop, fun s hbyte =>
    ⟨byteOf s.core.ctx.currentWord s.core.ctx.bidx, s.core.ctx.advanceByte, ?runs, fun h => ?byte0, fun h => ?byte1,
      fun h => ?byte2, fun h => ?byte3, Context.advanceByte_of_ne, fun h hcur => ?sameBatch, fun h hcur => ?nextBatch⟩⟩
  case runs => rw [exec_nextb_of_byteMode hbyte, CoreState.nextByte_eq]
  case byte0 | byte1 | byte2 | byte3 =>
    rw [h]
    rfl
  case sameBatch =>
    rw [Context.advanceByte_of_last h, Context.advance_of_ne hcur]
    rfl
  case nextBatch =>
    rw [Context.advanceByte_of_last h, Context.advance_of_zero hcur]
    rfl

/-! ## Word reads and the byte index -/

/-- A completing NEXT or STREAM leaves `BIDX`, and from another `BIDX` it ends in the same state but for that (R173). -/
theorem exec_wordRead_withBidx {i : Instr} {s t : State} (hi : i = .next ∨ ∃ abs count, i = .stream abs count)
    (h : exec i s = .next t) (n : BitVec 2) :
    t.core.ctx.bidx = s.core.ctx.bidx ∧ exec i (s.modify (·.withBidx n)) = .next (t.modify (·.withBidx n)) := by
  obtain rfl | ⟨abs, count, rfl⟩ := hi
  · cases h
    exact ⟨bidx_eq_of_withBidx CoreState.nextWord_withBidx s.core,
      (exec_next (s.modify (·.withBidx n))).trans (next_congr (s.core.nextWord_withBidx n))⟩
  · cases abs with
    | true =>
      cases h
      exact ⟨rfl, rfl⟩
    | false =>
      obtain ⟨hslots, rfl⟩ := by simpa [Instr.wellFormed, peekedValue] using exec_cases h
      exact ⟨bidx_eq_of_withBidx (CoreState.stream_withBidx count.toNat) s.core,
        (exec_stream_of_slots (s := s.modify (·.withBidx n)) hslots).trans (next_congr (s.core.stream_withBidx count.toNat n))⟩

/-- Settles O43: NEXT and STREAM pass `BIDX` by, so that a NEXTB after a NEXT takes byte `BIDX` of the new word. -/
theorem wordReadsIgnoreTheByteIndex : Obligations.WordReadsIgnoreTheByteIndex := by
  refine ⟨fun i s t n hi h => exec_wordRead_withBidx hi h n, fun s hbyte =>
    ⟨s.core.nextWord, s.core.nextWord.nextByte, exec_next s,
      exec_nextb_of_byteMode (s := { s with core := s.core.nextWord }) hbyte, rfl, ?_⟩⟩
  have hbidx : s.core.nextWord.ctx.bidx = s.core.ctx.bidx := bidx_eq_of_withBidx CoreState.nextWord_withBidx s.core
  rw [CoreState.nextByte_eq, hbidx, Context.currentWord, byteOf]

end Sys2Proof.Machine
end

section
/-!
PROOFS of the family 43_erase_and_peek.md: the words of ERASE and of the PEEK commands, the context that ERASE leaves (R190), and
the one element that a PEEK copies into `OUT` (R192 to R199).
-/

namespace Sys2Proof

open Machine

variable {cfg : Config} {v : CommandWord}

/-! ## The words of ERASE and PEEK -/

/-- R190: the one word of opcode 5 that is ERASE, and the cause of the others. -/
theorem decode_of_opcode_erase (hop : opField v = 5) :
    decode cfg v = if v = 0x00000005#32 then .ok .erase else .error .reservedField := by
  have hpick : pickRow (opField v) (selField v) = some .erase := by rw [hop]; rfl
  exact decode_of_present_eq_encode hpick rfl

/-- The PEEK of a selector is the command of the row that the selector picks (R74, R76). -/
theorem peekOf_eq_pickRow (v : CommandWord) :
    peekOf (selField v) (idxField v) = (pickRow 6 (selField v)).map (rowInstr v) := by
  simp [peekOf, pickRow, apply_ite (Option.map (rowInstr v)), rowInstr]

/-- The command of a picked PEEK row exists where the checks of R79 pass. -/
theorem wellFormed_of_peek_picked {r : Row} (hpick : pickRow 6 (selField v) = some r) (hpeek : cfg.peekEn = true)
    (hbyte : selField v = 6 → cfg.byteMode = true) : (rowInstr v r).wellFormed cfg = true := by
  obtain ⟨-, -, hbidx, hrows⟩ := pickRow_facts
  obtain rfl | rfl | rfl | rfl | rfl | rfl | rfl := (hrows _ _ _ hpick).1 rfl
  iterate 6 exact hpeek
  exact Bool.and_eq_true_iff.2 ⟨hpeek, hbyte ((hbidx _ _).1 hpick).2⟩

/-- R192: a word of a PEEK that the configuration has, and the cause of a reserved field. -/
theorem decode_of_peek_present {i : Instr} (hop : opField v = 6) (hpeek : cfg.peekEn = true)
    (hbyte : selField v = 6 → cfg.byteMode = true) (hi : peekOf (selField v) (idxField v) = some i) :
    decode cfg v = if v = encode i then .ok i else .error .reservedField := by
  rw [peekOf_eq_pickRow] at hi
  obtain ⟨r, hpick, rfl⟩ := Option.map_eq_some_iff.1 hi
  exact decode_of_present_eq_encode (hop.symm ▸ hpick) (wellFormed_of_peek_picked hpick hpeek hbyte)

/-- R192: the reserved selector has the cause of a reserved field. -/
theorem decode_of_peek_reservedSelector (hop : opField v = 6) (hpeek : cfg.peekEn = true)
    (hbyte : selField v = 6 → cfg.byteMode = true) (hi : peekOf (selField v) (idxField v) = none) :
    decode cfg v = .error .reservedField := by
  rw [peekOf_eq_pickRow, Option.map_eq_none_iff, ← hop] at hi
  have hassigned : ¬(opField v = 0 ∨ 7 ≤ opField v) := by rw [hop]; decide
  have hnextb : ¬(opField v = 4 ∧ cfg.byteMode = false) := by simp [hop]
  have hpeekEn : ¬(opField v = 6 ∧ cfg.peekEn = false) := by simp [hpeek]
  have hbidx : ¬(opField v = 6 ∧ selField v = 6 ∧ cfg.byteMode = false) := fun ⟨_, hsel, habsent⟩ =>
    Bool.eq_false_iff.1 habsent (hbyte hsel)
  simp only [decode, if_neg hassigned, if_neg hnextb, if_neg hpeekEn, if_neg hbidx, hi]

/-- The index field is bits 15:8 of the word, and the word's other bits do not depend on it (R71). -/
theorem encodeFields_eq_or_idx (op : BitVec 4) (abs : Bool) (sel : BitVec 3) (idx : Index) (imm : BitVec 16) :
    encodeFields op abs sel idx imm = encodeFields op abs sel 0 imm ||| idx.setWidth 32 <<< 8 := by
  apply BitVec.eq_of_getLsbD_eq
  intro i hi
  simp only [BitVec.getLsbD_or, BitVec.getLsbD_shiftLeft, BitVec.getLsbD_setWidth, Laws.EncodeSelectsRow.bit_of_fields]
  by_cases hlow : i < 8
  · simp [hlow]
  by_cases hhigh : i < 16
  · simp [hlow, hhigh, hi, show ¬i < 4 by omega, show i ≠ 4 by omega, show i - 8 < 32 by omega]
  · simp [hlow, hhigh, BitVec.getLsbD_of_ge idx (i - 8) (by omega)]

end Sys2Proof

namespace Sys2Proof.Machine

/-! ## ERASE -/

/-- What ERASE does to a core (R190). -/
theorem CoreState.erase_eq {w : Width} (k : CoreState w) :
    k.erase = { k with ctx := Context.zero w, out := 0, initDone := false, gran := .none, mixed := false } := rfl

/-- ERASE completes on every state. -/
theorem exec_erase (s : State) : exec .erase s = .next { s with core := s.core.erase } := rfl

/-- Settles O45: the decoder on opcode 5, and the zero context that ERASE leaves. -/
theorem eraseZeroesTheContext : Obligations.EraseZeroesTheContext := by
  refine ⟨fun _ _ hop => decode_of_opcode_erase hop, fun s =>
    ⟨Context.zero s.config.width, ?_, fun i => ⟨Bank.read_replicate 0 i, Bank.read_replicate 0 i⟩, rfl, rfl, rfl, rfl, rfl⟩⟩
  rw [exec_erase, CoreState.erase_eq]

/-! ## PEEK -/

/-- A PEEK that the configuration has completes, copies its element into `OUT` and changes nothing else (R192). -/
theorem exec_peek_of_wf {i : Instr} {s : State} {v : Word s.config.width} (hv : peekedValue s.core.ctx i = some v)
    (hwf : i.wellFormed s.config = true) : exec i s = .next { s with core := { s.core with out := v } } := by
  cases i with
  | init | next | stream | nextb | erase => cases hv
  | peekRes | peekMem | peekA | peekB | peekC | peekCur | peekBidx =>
    cases hv
    exact State.runIfPresent_of_wf hwf

/-- Settles O46: the decoder on opcode 6, the words of the seven commands, and the element that each copies. -/
theorem peekCopiesOneElement : Obligations.PeekCopiesOneElement := by
  refine ⟨fun cfg v hop => ?decode, fun idx => ⟨encodeFields_eq_or_idx 6 false 0 idx 0, encodeFields_eq_or_idx 6 false 1 idx 0⟩,
    rfl, rfl, rfl, rfl, rfl, fun s hpeek => ⟨fun _ => exec_peek_of_wf rfl hpeek, fun _ => exec_peek_of_wf rfl hpeek,
      exec_peek_of_wf rfl hpeek, exec_peek_of_wf rfl hpeek, exec_peek_of_wf rfl hpeek, exec_peek_of_wf rfl hpeek,
      fun hbyte => exec_peek_of_wf rfl (Bool.and_eq_true_iff.2 ⟨hpeek, hbyte⟩)⟩⟩
  by_cases habsent : cfg.peekEn = false ∨ (selField v = 6 ∧ cfg.byteMode = false)
  · rw [if_pos habsent]
    obtain hpeek | ⟨hsel, hbyte⟩ := habsent
    · exact decode_of_peek_absent hop hpeek
    · exact decode_of_peekBidx_absent hop hsel hbyte
  · rw [if_neg habsent]
    obtain ⟨hpeek, hbyte⟩ : cfg.peekEn = true ∧ (selField v = 6 → cfg.byteMode = true) := by simpa using habsent
    cases hi : peekOf (selField v) (idxField v) with
    | some i => exact decode_of_peek_present hop hpeek hbyte hi
    | none => exact decode_of_peek_reservedSelector hop hpeek hbyte hi

end Sys2Proof.Machine
end

section
/-!
PROOFS of the family 60_exceptions.md: taking the illegal-command exception (R213), and the three status fields that tell of the
most recent illegal command (R216).
-/

namespace Sys2Proof

variable {cfg : Config} {v : CommandWord}

/-- The decoder answers only commands that the configuration has: PEEK needs `PEEK_EN`, PEEK.BIDX and NEXTB need byte mode (R79). -/
theorem wellFormed_of_decode_eq_ok {i : Instr} (h : decode cfg v = .ok i) : i.wellFormed cfg = true := by
  obtain ⟨r, hpick, -, rfl, hnextb, hpeek, hbidx⟩ := decode_ok h
  by_cases hop : opField v = 6
  · exact wellFormed_of_peek_picked (hop ▸ hpick) (hpeek hop) (hbidx hop)
  · obtain ⟨-, hnextbRow, -, hpeekRow⟩ := pickRow_facts
    cases r with
    | init | next | stream | erase => rfl
    | nextb => exact hnextb ((hnextbRow _ _).1 hpick)
    | peekRes | peekMem | peekA | peekB | peekC | peekCur | peekBidx => exact absurd ((hpeekRow _ _ _ hpick).2 (by simp)) hop

end Sys2Proof

namespace Sys2Proof.Machine

/-! ## Taking the exception -/

/-- Settles O13: the step takes the exception, whose effect on the core is the three fields and the fault mark. -/
theorem illegalWordTakesTheException : Obligations.IllegalWordTakesTheException :=
  fun _ _ _ _ hwait hdecode => step_of_decode_error hwait hdecode

/-! ## What the status fields tell -/

/-- What the core tells of illegal commands: `STATUS.ILLEGAL`, `STATUS.ECAUSE` and `ERRCMD` (R216). -/
def CoreState.illegalReport {w : Width} (k : CoreState w) : Bool × BitVec 3 × CommandWord := (k.illegal, k.ecause, k.errCmd)

/-- Equal reports are equal in each of the three fields. -/
theorem CoreState.illegalReport_eq_iff {w w' : Width} {k : CoreState w} {l : CoreState w'} :
    k.illegalReport = l.illegalReport ↔ k.illegal = l.illegal ∧ k.ecause = l.ecause ∧ k.errCmd = l.errCmd := by
  simp [CoreState.illegalReport]

/-- STREAM leaves the report. -/
theorem CoreState.stream_illegalReport {w : Width} (n : Nat) (k : CoreState w) :
    (k.stream n).illegalReport = k.illegalReport := by
  rw [CoreState.stream_eq]
  rfl

/-- A command that the configuration has leaves the report (R216). -/
theorem exec_illegalReport {i : Instr} {s t : State} (hwf : i.wellFormed s.config = true) (h : exec i s = .next t) :
    t.core.illegalReport = s.core.illegalReport := by
  obtain ⟨habsent, -⟩ | ⟨-, heffect⟩ := exec_cases h
  · exact absurd hwf (Bool.eq_false_iff.1 habsent)
  obtain ⟨_, _, _, -, -, rfl⟩ | ⟨-, rfl⟩ | ⟨_, -, rfl⟩ | ⟨count, -, -, rfl⟩ | ⟨-, rfl⟩ | ⟨-, rfl⟩ | ⟨_, -, rfl⟩ := heffect
  case inr.inr.inr.inr.inl => exact CoreState.stream_illegalReport count.toNat s.core
  all_goals rfl

/-- A host action that submits a command word is a write of that word to `CMD`. -/
theorem hostAct_command_write {cfg : Config} {act : HostAction cfg.width} {k l : CoreState cfg.width} {word : CommandWord}
    (h : hostAct cfg act k = .command word l) : act = .write cfg.regBase (.d32 word) := by
  obtain ⟨-, addr, rfl⟩ := hostAct_command h
  simp only [hostAct, hostWrite, busDataSize] at h
  split at h
  · rename_i hport _
    rw [portAt_cmd hport]
  · cases h
  · cases h

/-- A host action that is no command and no reset leaves the report: a write off `CMD`, a read, a binding of a buffer. -/
theorem hostAct_done_illegalReport {cfg : Config} {act : HostAction cfg.width} {k l : CoreState cfg.width}
    (hact : ∀ draw, act ≠ .reset draw) (h : hostAct cfg act k = .done l) : l.illegalReport = k.illegalReport := by
  cases act with
  | write addr data =>
    simp only [hostAct, hostWrite] at h
    split at h <;> cases h
    rfl
  | read addr size =>
    simp only [hostAct, hostRead] at h
    split at h <;> cases h
    rfl
  | bindSeed bytes => cases h; rfl
  | bindOut slots contents => cases h; rfl
  | reset draw => exact absurd rfl (hact draw)

/-- A step that takes no illegal command word and no reset leaves the report. -/
theorem step_illegalReport {s t : State} (h : step s = .next t)
    (hlegal : ∀ v rest cause, s.commandWaiting v rest → decode s.config v ≠ .error cause)
    (hreset : ∀ draw rest, s.core.pending ≠ .reset draw :: rest) : t.core.illegalReport = s.core.illegalReport := by
  obtain ⟨-, rfl⟩ | ⟨act, rest, hpending, haction⟩ := step_cases h
  · rfl
  obtain ⟨word, k, i, hact, hdecode, hexec⟩ | ⟨word, k, cause, hact, hdecode, -⟩ | ⟨k, hact, rfl⟩ := haction
  case inr.inl =>
    obtain ⟨rfl, -⟩ := hostAct_command hact
    exact exec_illegalReport (s := s.withPending rest) (wellFormed_of_decode_eq_ok hdecode) hexec
  case inr.inr.inl =>
    have hwait : s.commandWaiting word rest := hpending.trans (by rw [hostAct_command_write hact])
    exact absurd hdecode (hlegal word rest cause hwait)
  case inr.inr.inr =>
    exact hostAct_done_illegalReport (k := (s.withPending rest).core) (fun draw hdraw => hreset draw rest (hdraw ▸ hpending)) hact

/-- Settles O14: the exception and the reset write the three fields, and no other step does. -/
theorem statusTellsTheMostRecentIllegalCommand : Obligations.StatusTellsTheMostRecentIllegalCommand := by
  refine fun s t h => ⟨fun v rest cause hwait hdecode => ?illegal, fun draw rest hreset => ?reset, fun hlegal hreset => ?other⟩
  case illegal =>
    rw [step_of_decode_error hwait hdecode] at h
    cases h
    exact ⟨rfl, rfl, rfl⟩
  case reset =>
    rw [step_of_resetWaiting hreset] at h
    cases h
    exact ⟨rfl, rfl, rfl⟩
  case other => exact CoreState.illegalReport_eq_iff.1 (step_illegalReport h hlegal hreset)

end Sys2Proof.Machine
end

section
/-!
PROOFS of the family other, the encoding: decode and encode are inverse to each other, the rows of the opcode map (R76, R83), the
causes of the spec's examples (R214), and the words that the assembler gives (R81, R82).
-/

namespace Sys2Proof

open Machine

variable {cfg : Config} {v : CommandWord}

/-! ## Decode and encode -/

/-- The word of a command picks and selects the command's own row (R75, R76). -/
theorem encode_selects (i : Instr) : Laws.EncodeSelectsRow.Statement i := by
  cases i with
  | init abs len => exact Laws.EncodeSelectsRow.init abs len
  | next => exact Laws.EncodeSelectsRow.next
  | stream abs count => exact Laws.EncodeSelectsRow.stream abs count
  | nextb => exact Laws.EncodeSelectsRow.nextb
  | erase => exact Laws.EncodeSelectsRow.erase
  | peekRes idx => exact Laws.EncodeSelectsRow.peekRes idx
  | peekMem idx => exact Laws.EncodeSelectsRow.peekMem idx
  | peekA => exact Laws.EncodeSelectsRow.peekA
  | peekB => exact Laws.EncodeSelectsRow.peekB
  | peekC => exact Laws.EncodeSelectsRow.peekC
  | peekCur => exact Laws.EncodeSelectsRow.peekCur
  | peekBidx => exact Laws.EncodeSelectsRow.peekBidx

/-- Settles O5: the command's word picks the command's row, selects it, and holds the command's operands. -/
theorem decodeOfEncodeIsTheCommand : Obligations.DecodeOfEncodeIsTheCommand := by
  intro cfg i hwf
  obtain ⟨hpick, hselects⟩ := encode_selects i
  have hdecode := decode_of_present (cfg := cfg) hpick (by rwa [rowInstr_encode])
  rwa [if_pos hselects, rowInstr_encode] at hdecode

/-- A word that decodes is the word of its command. -/
theorem encode_of_decode {i : Instr} (h : decode cfg v = .ok i) : encode i = v := by
  obtain ⟨r, -, hselects, rfl, -⟩ := decode_ok h
  exact encode_rowInstr hselects

/-- Settles O6: the row that a decoding word selects says its bits, and the decoder's checks say that the command is present. -/
theorem encodeOfDecodeIsTheWord : Obligations.EncodeOfDecodeIsTheWord :=
  fun _ _ _ h => ⟨encode_of_decode h, wellFormed_of_decode_eq_ok h⟩

/-! ## The rows of the opcode map -/

@[simp] theorem instrRow_rowInstr (v : CommandWord) (r : Row) : instrRow (rowInstr v r) = r := by
  cases r <;> rfl

/-- The opcode and the selector of a word that selects a row pick that row. -/
theorem pickRow_of_selectsRow {r : Row} (h : selectsRow v r = true) : pickRow (opField v) (selField v) = some r := by
  have hpick := (encode_selects (rowInstr v r)).1
  rwa [encode_rowInstr h, instrRow_rowInstr] at hpick

/-- Settles O7: a word's opcode and selector pick one row, and a word that decodes selects a row. -/
theorem rowsAreDisjointAndOthersIllegal : Obligations.RowsAreDisjointAndOthersIllegal := by
  refine fun v => ⟨fun r₁ r₂ h₁ h₂ => ?disjoint, fun hnone cfg => ?illegal⟩
  case disjoint =>
    exact Option.some.inj ((pickRow_of_selectsRow h₁).symm.trans (pickRow_of_selectsRow h₂))
  case illegal =>
    cases hdecode : decode cfg v with
    | error cause => exact ⟨cause, rfl⟩
    | ok i =>
      obtain ⟨r, -, hselects, -⟩ := decode_ok hdecode
      exact absurd hselects (Bool.eq_false_iff.1 (hnone r))

/-! ## The spec's examples -/

/-- Settles O11: the selector that picks no row, and for each example the check that it fails first. -/
theorem causePriorityOnTheSpecsExamples : Obligations.CausePriorityOnTheSpecsExamples := by
  refine ⟨fun cfg v hop hsel hpeek => ?selector7, fun _ => decode_of_reservedOpcode (by decide),
    fun _ hbyte => decode_of_nextb_absent (by decide) hbyte, fun _ => (decode_of_opcode_next (by decide)).trans (if_neg (by decide))⟩
  case selector7 =>
    refine decode_of_peek_reservedSelector hop hpeek (fun h => ?_) (by rw [hsel]; rfl)
    rw [hsel] at h
    exact absurd h (by decide)

/-- Settles O12: each word is the word of its command, written out. -/
theorem writtenOutWordsDecode : Obligations.WrittenOutWordsDecode :=
  have hdecode := decodeOfEncodeIsTheCommand Config.full
  ⟨hdecode (.init false 8) rfl, hdecode (.init true 255) rfl, hdecode .next rfl, hdecode (.stream false 300) rfl,
    hdecode .nextb rfl, hdecode .erase rfl, hdecode (.peekRes 255) rfl, hdecode (.peekMem 3) rfl, hdecode .peekBidx rfl⟩

/-! ## The assembler -/

/-- A line that assembles to a command's word, without a warning, gives a word that decodes to the command. -/
theorem decodes_of_assemble {line : AsmLine} {i : Instr} (hline : assemble line = asmCommand i) (hwf : i.wellFormed cfg = true) :
    ∃ v, assemble line = .command v false ∧ decode cfg v = .ok i :=
  ⟨encode i, hline, decodeOfEncodeIsTheCommand cfg i hwf⟩

/-- Settles O60: the range check of each numbered line passes or fails, and a word that passed decodes by O5. -/
theorem assemblerGivesDecodableWords : Obligations.AssemblerGivesDecodableWords := fun _ hpeek =>
  ⟨fun _ _ hn => decodes_of_assemble (if_pos hn) rfl, fun _ _ hn => decodes_of_assemble (if_pos hn) rfl,
    fun _ hn => decodes_of_assemble (if_pos hn) hpeek, fun _ hn => decodes_of_assemble (if_pos hn) hpeek,
    rfl, fun _ hn => if_pos hn, fun _ _ hn => ⟨if_neg (Nat.not_lt.2 hn), if_neg (Nat.not_lt.2 hn)⟩,
    fun _ hn => ⟨if_neg (Nat.not_lt.2 hn), if_neg (Nat.not_lt.2 hn)⟩⟩

end Sys2Proof
end

section
/-!
PROOFS of the family other, the seed and the Permutation Engine: the mixing networks are bijections (R120), the context after INIT is a
function of the seed bytes (R105, R106, R111), which INITs and STREAMs stop (R57), and what a Shuffle writes when (R135 to R138, R141).
-/

namespace Sys2Proof.Machine

/-! ## The mixing networks are bijections -/

/-- A line of `Mix32` can be undone: register `j + 1` from the kept `j + 2`, register `j + 3` from the new `j`, and register `j` last. -/
theorem mixLine32_injective (j : Fin 8) : Function.Injective (mixLine32 j) := by
  intro r s h
  obtain ⟨hr0, hr3, hr1, hrkeep⟩ := mixLine32_updates j r
  obtain ⟨hs0, hs3, hs1, hskeep⟩ := mixLine32_updates j s
  rw [h] at hr0 hr1 hr3 hrkeep
  have hkeep : ∀ m, m ≠ j → m ≠ j + 1 → m ≠ j + 3 → r m = s m := fun m h0 h1 h3 =>
    (hrkeep m h0 h1 h3).symm.trans (hskeep m h0 h1 h3)
  have h1 : r (j + 1) = s (j + 1) :=
    add_right_cancel (hr1.symm.trans (hs1.trans (by rw [hkeep (j + 2) (by simp) (by simp) (by simp)])))
  have h3 : r (j + 3) = s (j + 3) := add_right_cancel (hr3.symm.trans hs3)
  have h0 : r j = s j := (BitVec.xor_left_inj _).1 (hr0.symm.trans (hs0.trans (by rw [h1])))
  funext m
  by_cases e0 : m = j
  · rw [e0, h0]
  by_cases e1 : m = j + 1
  · rw [e1, h1]
  by_cases e3 : m = j + 3
  · rw [e3, h3]
  exact hkeep m e0 e1 e3

/-- A line of `Mix64` can be undone: register `j + 7` from the new `j`, register `j + 5` from it, and register `j` from the kept `j + 4`. -/
theorem mixLine64_injective (j : Fin 8) : Function.Injective (mixLine64 j) := by
  intro r s h
  obtain ⟨hr0, hr5, hr7, hrkeep⟩ := mixLine64_updates j r
  obtain ⟨hs0, hs5, hs7, hskeep⟩ := mixLine64_updates j s
  rw [h] at hr0 hr5 hr7 hrkeep
  have hkeep : ∀ m, m ≠ j → m ≠ j + 5 → m ≠ j + 7 → r m = s m := fun m h0 h5 h7 =>
    (hrkeep m h0 h5 h7).symm.trans (hskeep m h0 h5 h7)
  have h7 : r (j + 7) = s (j + 7) := add_right_cancel (hr7.symm.trans hs7)
  have h5 : r (j + 5) = s (j + 5) := (BitVec.xor_left_inj _).1 (hr5.symm.trans (hs5.trans (by rw [h7])))
  have h0 : r j = s j :=
    sub_left_injective (hr0.symm.trans (hs0.trans (by rw [hkeep (j + 4) (by simp) (by simp) (by simp)])))
  funext m
  by_cases e0 : m = j
  · rw [e0, h0]
  by_cases e5 : m = j + 5
  · rw [e5, h5]
  by_cases e7 : m = j + 7
  · rw [e7, h7]
  exact hkeep m e0 e5 e7

/-- Lines that can be undone make a network that can. -/
theorem afterLines_injective {α : Type} {line : Fin 8 → α → α} (hline : ∀ j, Function.Injective (line j)) (n : Nat) :
    Function.Injective fun r => afterLines line r n := by
  induction n with
  | zero => exact Function.injective_id
  | succ n ih => exact (hline (Fin.ofNat 8 n)).comp ih

/-- The eight registers say the state of the network. -/
theorem KRegs.get_injective {w : Width} : Function.Injective (KRegs.get (w := w)) := by
  rintro ⟨k0, k1, k2, k3, k4, k5, k6, k7⟩ ⟨l0, l1, l2, l3, l4, l5, l6, l7⟩ h
  have hget := congrFun h
  rw [KRegs.mk.injEq]
  exact ⟨hget 0, hget 1, hget 2, hget 3, hget 4, hget 5, hget 6, hget 7⟩

theorem mix_injective (w : Width) : Function.Injective (mix w) := by
  intro k l h
  have hget : (mix w k).get = (mix w l).get := by rw [h]
  cases w with
  | w32 =>
    rw [← afterLines_mixLine32, ← afterLines_mixLine32] at hget
    exact KRegs.get_injective (afterLines_injective mixLine32_injective 8 hget)
  | w64 =>
    rw [← afterLines_mixLine64, ← afterLines_mixLine64] at hget
    exact KRegs.get_injective (afterLines_injective mixLine64_injective 8 hget)

/-- Settles O27: each line of a network can be undone, and on finitely many register values an injection is a bijection. -/
theorem mixNetworksAreBijections : Obligations.MixNetworksAreBijections := by
  intro w
  have hfinite : Finite (KRegs w) := Finite.of_injective KRegs.get KRegs.get_injective
  refine ⟨Finite.injective_iff_bijective.1 (mix_injective w), ?_⟩
  cases w <;> decide

/-! ## The context after INIT -/

section Seed

variable {w : Width}

/-- The working registers of pass 1 do not depend on the old `MEM`: the pass reads `RES` alone (R116). -/
theorem Scramble.blocks1_k_congr (res : Bank w) {s t : Scramble w} (h : s.k = t.k) (n : Nat) :
    (s.blocks1 res n).k = (t.blocks1 res n).k := by
  induction n with
  | zero => exact h
  | succ n ih => rw [Scramble.blocks1_succ_k, Scramble.blocks1_succ_k, ih]

/-- Pass 1 overwrites all of `MEM`, so that it leaves nothing of the old one. -/
theorem Context.pass1_congr {x y : Context w} (h : x.res = y.res) : x.pass1 = y.pass1 := by
  have hk : ∀ n, ((⟨goldenMixed w, x.mem⟩ : Scramble w).blocks1 x.res n).k =
      ((⟨goldenMixed w, y.mem⟩ : Scramble w).blocks1 y.res n).k := fun n => by
    rw [h]
    exact Scramble.blocks1_k_congr y.res (s := ⟨goldenMixed w, x.mem⟩) (t := ⟨goldenMixed w, y.mem⟩) rfl n
  have hmem : x.pass1.mem = y.pass1.mem := Bank.ext_blocks fun j hj =>
    ((Scramble.blocks1_storesInOrder x.res _).blockOf_stored hj le_rfl).trans
      ((hk (j + 1)).trans ((Scramble.blocks1_storesInOrder y.res _).blockOf_stored hj le_rfl).symm)
  calc x.pass1 = ⟨x.pass1.k, x.pass1.mem⟩ := rfl
    _ = ⟨y.pass1.k, y.pass1.mem⟩ := by rw [show x.pass1.k = y.pass1.k from hk 32, hmem]

/-- The KeyScramble's `MEM` depends on `RES` alone. -/
theorem Context.keyScramble_mem_congr {x y : Context w} (h : x.res = y.res) : x.keyScramble.mem = y.keyScramble.mem := by
  rw [Context.keyScramble_mem_eq_pass2, Context.keyScramble_mem_eq_pass2, Context.pass1_congr h]

/-- The keyed context depends on the seed, and of the old context on `CUR` and `BIDX`, which nothing in it reads. -/
theorem Context.keyed_congr (seed : List Byte) (x y : Context w) :
    x.keyed seed = { y.keyed seed with cur := x.cur, bidx := x.bidx } := by
  have hmem : (x.keyed seed).mem = (y.keyed seed).mem := Context.keyScramble_mem_congr rfl
  calc x.keyed seed = ⟨(x.keyed seed).res, (x.keyed seed).mem, (x.keyed seed).a, (x.keyed seed).b, (x.keyed seed).c,
        (x.keyed seed).cur, (x.keyed seed).bidx⟩ := rfl
    _ = { y.keyed seed with cur := x.cur, bidx := x.bidx } := by
      simp only [Context.keyed_res, Context.keyed_a, Context.keyed_b, Context.keyed_c, Context.keyed_cur, Context.keyed_bidx, hmem]

/-- The context after INIT depends on the seed, and of the old context on `BIDX` where byte mode is absent. -/
theorem Context.initialise_congr {byteMode : Bool} (seed : List Byte) {x y : Context w}
    (hbidx : byteMode = false → x.bidx = y.bidx) : x.initialise byteMode seed = y.initialise byteMode seed := by
  have hshuffle : (x.keyed seed).shuffle = { (y.keyed seed).shuffle with cur := x.cur, bidx := x.bidx } := by
    rw [Context.keyed_congr seed x y]
    exact (y.keyed seed).shuffle_with _ _ _
  rw [Context.initialise_eq, Context.initialise_eq, hshuffle, Context.shuffle_bidx, Context.keyed_bidx]
  cases byteMode with
  | true => rfl
  | false => rw [hbidx rfl]

/-- INIT's context of a seed with zero bytes after it: the SeedLoad puts zeros there anyway (R106). -/
theorem seedLoad_append_zeros (w : Width) (seed : List Byte) (n : Nat) :
    seedLoad w (seed ++ List.replicate n 0) = seedLoad w seed := by
  refine Bank.ext fun i => ?_
  by_cases hi : i.toNat < seed.length
  · have hbyte : seed[i.toNat]? = some seed[i.toNat] := List.getElem?_eq_getElem hi
    rw [seedLoad_read_of_byte hbyte, seedLoad_read_of_byte ((List.getElem?_append_left hi).trans hbyte)]
  rw [seedLoad_read_of_length_le (Nat.not_lt.1 hi)]
  by_cases hn : i.toNat < seed.length + n
  · have hbyte : (seed ++ List.replicate n 0)[i.toNat]? = some 0 := by
      rw [List.getElem?_append_right (by omega), List.getElem?_replicate_of_lt (by omega)]
    exact (seedLoad_read_of_byte hbyte).trans (BitVec.setWidth_zero _ _)
  · exact seedLoad_read_of_length_le (by simpa using hn)

end Seed

/-- The seed bytes read depend on the elements below the effective length. -/
theorem seedBytes_congr {buf buf' : SeedBuffer} {l : Nat} {seed : List Byte} (hseed : seedBytes buf l = some seed)
    (h : ∀ i < l, Memory.read (α := Byte) buf i = Memory.read (α := Byte) buf' i) : seedBytes buf' l = some seed := by
  obtain ⟨hlength, hread⟩ := Memory.readRange_eq_some.1 hseed
  exact Memory.readRange_eq_some.2 ⟨hlength, fun i hi => (by rw [Nat.zero_add, ← h i hi, ← hread i hi, Nat.zero_add])⟩

/-- INIT on a buffer that gives the seed. -/
theorem exec_init_of_seed {abs : Bool} {len : BitVec 16} {s : State} {seed : List Byte}
    (h : seedBytes s.core.seedBuf (effectiveLength abs len) = some seed) :
    exec (.init abs len) s = .next { s with core := s.core.initialise s.config.byteMode seed } :=
  execInit_of_seed h

/-- INIT's Shuffle ends with `b` in the batch's last word (R138). -/
theorem Context.initialise_lastWord {w : Width} (byteMode : Bool) (seed : List Byte) (x : Context w) :
    (x.initialise byteMode seed).b = (x.initialise byteMode seed).res.read 255 := by
  rw [Context.initialise_b, Context.initialise_res, Context.shuffle_last]

/-- Settles O19: the batch that INIT's one Shuffle makes from `c = 0`. -/
theorem initLeavesTheFirstBatch : Obligations.InitLeavesTheFirstBatch := by
  intro abs len s t h
  obtain ⟨seed, rfl⟩ := exec_init_next h
  refine ⟨s.core.initialise s.config.byteMode seed, rfl, ?_, Context.initialise_lastWord _ seed _, Context.initialise_cur _ seed _⟩
  have hc : (s.core.ctx.initialise s.config.byteMode seed).c = 0 + 1 := by
    rw [Context.initialise_c, Context.shuffle_c, Context.keyed_c]
  exact hc.trans (BitVec.zero_add 1)

/-- Settles O20: both INITs read the same seed bytes, and by the invariant `BIDX` is 0 in both where INIT does not write it. -/
theorem initContextDependsOnTheSeedAlone : Obligations.InitContextDependsOnTheSeedAlone := by
  intro cfg k₁ k₂ abs₁ abs₂ len₁ len₂ hinv₁ hinv₂ hlength hholds hsame
  obtain ⟨seed, hseed₁⟩ := hholds.seedBytes_eq
  have hseed₂ : seedBytes k₂.seedBuf (effectiveLength abs₂ len₂) = some seed := hlength ▸ seedBytes_congr hseed₁ hsame
  refine ⟨k₁.initialise cfg.byteMode seed, k₂.initialise cfg.byteMode seed, exec_init_of_seed hseed₁, exec_init_of_seed hseed₂, ?_⟩
  exact Context.initialise_congr seed fun hbyte => (hinv₁.bidx hbyte).trans (hinv₂.bidx hbyte).symm

/-- Settles O22: the effective length is at most 256, and the SeedLoad is the same for a seed and its padding. -/
theorem seedIsTruncatedAndPadded : Obligations.SeedIsTruncatedAndPadded := by
  refine ⟨fun len s hlen => ?truncated, fun w byteMode seed n x _ => ?padded⟩
  case truncated =>
    have hlength : effectiveLength false len = effectiveLength false 256 := Nat.min_eq_right hlen
    rw [exec, exec, execInit, execInit, hlength]
  case padded =>
    rw [Context.initialise_eq, Context.initialise_eq, Context.keyed, Context.keyed, seedLoad_append_zeros]

/-! ## Launches that break a buffer duty -/

/-- A buffer that lacks one of the seed bytes does not give them (R57 item 1). -/
theorem seedBytes_eq_none {buf : SeedBuffer} {l i : Nat} (hi : i < l) (h : Memory.read (α := Byte) buf i = none) :
    seedBytes buf l = none := by
  cases hseed : seedBytes buf l with
  | none => rfl
  | some seed =>
    obtain ⟨hlength, hread⟩ := Memory.readRange_eq_some.1 hseed
    have hbyte := hread i hi
    rw [Nat.zero_add, h, List.getElem?_eq_getElem (by omega)] at hbyte
    cases hbyte

/-- Settles O24: INIT needs every byte below its effective length, STREAM its `COUNT` slots. -/
theorem brokenBufferDutyStops : Obligations.BrokenBufferDutyStops := by
  refine ⟨fun abs len s i hi hnone => ?init, fun count s hslots => if_neg (Nat.not_le.2 hslots)⟩
  case init => rw [exec, execInit, seedBytes_eq_none hi hnone]

/-! ## The Shuffle -/

section Shuffle

variable {w : Width}

/-- Each Shuffle counts one round, modulo `2^W` (R136). -/
theorem Context.shuffles_c (x : Context w) (n : Nat) : (x.shuffles n).c = x.c + BitVec.ofNat w.bits n := by
  induction n with
  | zero => simp [Context.shuffles]
  | succ n ih =>
    rw [Context.shuffles, Context.shuffle_c, ih, BitVec.ofNat_add, BitVec.add_assoc]
    rfl

/-- A Shuffle ends with what micro-step `i` wrote in `MEM[i]`. -/
theorem Context.shuffle_mem_read {i : Nat} (hi : i < 256) (x : Context w) :
    x.shuffle.mem.read (BitVec.ofNat 8 i) = (x.countRound.microSteps (i + 1)).mem.read (BitVec.ofNat 8 i) := by
  rw [Context.shuffle_eq, (Context.microSteps_keep hi le_rfl _).1]

/-- An element whose micro-step is done is final. -/
theorem Context.microSteps_mem_final {i j : Nat} (hj : j < i) (hi : i ≤ 256) (x : Context w) :
    (x.countRound.microSteps i).mem.read (BitVec.ofNat 8 j) = x.shuffle.mem.read (BitVec.ofNat 8 j) := by
  rw [Context.shuffle_mem_read (by omega), (Context.microSteps_keep hj hi _).1]

/-- The mirror is half the array ahead, which is what pass 1 reads. -/
theorem mirror_eq (i : Nat) : mirror (BitVec.ofNat 8 i) = BitVec.ofNat 8 (i + 128) := by
  rw [BitVec.ofNat_add]
  rfl

/-- In the upper half the mirror is half the array behind, which is what pass 2 reads. -/
theorem mirror_of_le {i : Nat} (hi : 128 ≤ i) : mirror (BitVec.ofNat 8 i) = BitVec.ofNat 8 (i - 128) := by
  have hbehind : BitVec.ofNat 8 i = mirror (BitVec.ofNat 8 (i - 128)) := by rw [mirror_eq, Nat.sub_add_cancel hi]
  rw [hbehind, mirror, mirror, BitVec.add_assoc]
  exact BitVec.add_zero _

end Shuffle

/-- Settles O31: the last micro-step's `b`, the fields that no micro-step writes, and the count of rounds. -/
theorem shuffleCountsRoundsAndEndsWithTheLastWord : Obligations.ShuffleCountsRoundsAndEndsWithTheLastWord :=
  fun _ x => ⟨x.shuffle_last.symm, x.shuffle_cur, x.shuffle_bidx, x.shuffles_c⟩

/-- Settles O32: elements from `i` on are old before micro-step `i`, those before it final, and the mirror of `i` is one or the other. -/
theorem shuffleWritesEachElementOnceInOrder : Obligations.ShuffleWritesEachElementOnceInOrder := by
  refine fun w x i hi => ⟨x.countRound.microSteps_later le_rfl hi, x.shuffle_mem_read hi, x.shuffle_res_read hi,
    fun hpass => ?_, fun hpass => ?_⟩
  · rw [mirror_eq]
    exact x.countRound.microSteps_later (by omega) (by omega)
  · rw [mirror_of_le hpass, x.microSteps_mem_final (by omega) hi.le]

/-- The round counter's wrap: the new `c` is 0, and `b` takes in 0 (R141 item 1). -/
theorem Context.countRound_of_wrap {w : Width} {x : Context w} (h : x.c = -1) : x.countRound.c = 0 ∧ x.countRound.b = x.b := by
  have hc : x.c + 1 = 0 := by rw [h, neg_add_cancel]
  exact ⟨hc, (congrArg (x.b + ·) hc).trans (BitVec.add_zero x.b)⟩

/-- Settles O33: the wrap, and what the first micro-step writes from the zero context, which is final. -/
theorem shuffleCornerCases : Obligations.ShuffleCornerCases := by
  refine ⟨fun _ _ h => Context.countRound_of_wrap h, ?mem32, ?res32, ?mem64, ?res64⟩
  case mem32 | mem64 => exact (Context.shuffle_mem_read (by decide) _).trans (by decide)
  case res32 | res64 => exact (Context.shuffle_res_read (by decide) _).trans (by decide)

end Sys2Proof.Machine
end

section
/-!
PROOFS of the family other, the Stream Cursor: where `n` moves leave it and how many Shuffles they run (R167, R257), STREAM as that many
NEXTs and as two STREAMs (R166), and the four NEXTBs of a word (R174).
-/

namespace Sys2Proof.Machine

variable {w : Width}

/-! ## The cursor after `n` moves -/

/-- The context with another cursor. -/
def Context.withCur (x : Context w) (cur : Index) : Context w := { x with cur := cur }

@[simp] theorem Context.withCur_cur (x : Context w) (cur : Index) : (x.withCur cur).cur = cur := rfl
@[simp] theorem Context.withCur_c (x : Context w) (cur : Index) : (x.withCur cur).c = x.c := rfl
@[simp] theorem Context.withCur_withCur (x : Context w) (cur cur' : Index) : (x.withCur cur).withCur cur' = x.withCur cur' := rfl

@[simp] theorem Context.withCur_currentWord (x : Context w) (cur : Index) : (x.withCur cur).currentWord = x.res.read cur := rfl

/-- A Shuffle passes `CUR` by (R130). -/
theorem Context.shuffle_withCur (x : Context w) (cur : Index) : (x.withCur cur).shuffle = x.shuffle.withCur cur := by
  have h : (x.withCur cur).shuffle = { x.shuffle with cur := cur, bidx := x.bidx } := x.shuffle_with x.res cur x.bidx
  rw [h, ← x.shuffle_bidx]
  rfl

/-- Advance past the batch's last word (R161). -/
theorem Context.advance_withCur_zero (x : Context w) : (x.withCur 0).advance = x.shuffle.withCur 255 := by
  have h : (x.withCur 0).advance = (x.withCur 0).shuffle.withCur 255 := Context.advance_of_zero rfl
  rw [h, Context.shuffle_withCur, Context.withCur_withCur]

/-- Advance within a batch (R161). -/
theorem Context.advance_withCur_of_ne {cur : Index} (h : cur ≠ 0) (x : Context w) : (x.withCur cur).advance = x.withCur (cur - 1) :=
  Context.advance_of_ne h

theorem Context.shuffles_succ (n : Nat) (x : Context w) : x.shuffles (n + 1) = (x.shuffles n).shuffle := rfl

/-- The cursor has come down to 0 when the words read, modulo 256, are as many as it started from. -/
theorem cur_sub_eq_zero_iff (cur : Index) (n : Nat) : cur - BitVec.ofNat 8 n = 0 ↔ n % 256 = cur.toNat := by
  have hcur : cur.toNat < 256 := cur.isLt
  rw [← BitVec.toNat_inj]
  simp only [BitVec.toNat_sub, BitVec.ofNat_eq_ofNat, BitVec.toNat_ofNat]
  omega

/-- One word more moves the cursor down by one, modulo 256. -/
theorem cur_sub_succ (cur : Index) (n : Nat) : cur - BitVec.ofNat 8 (n + 1) = cur - BitVec.ofNat 8 n - 1 := by
  rw [BitVec.ofNat_add, sub_add_eq_sub_sub]
  rfl

/-- `n` moves from any cursor: one Shuffle at each batch's last word, and the cursor down by `n` modulo 256 (R161, R167). -/
theorem Context.advance_iterate (n : Nat) (x : Context w) :
    Context.advance^[n] x =
      (x.shuffles ((n + 255 - x.cur.toNat) / 256)).withCur (x.cur - BitVec.ofNat 8 n) := by
  have hcur : x.cur.toNat < 256 := x.cur.isLt
  induction n with
  | zero =>
    have hnone : (0 + 255 - x.cur.toNat) / 256 = 0 := by omega
    rw [hnone]
    exact (Context.set_cur_self (BitVec.sub_zero x.cur).symm).symm
  | succ n ih =>
    rw [Function.iterate_succ_apply', ih, cur_sub_succ]
    by_cases hlast : x.cur - BitVec.ofNat 8 n = 0
    · have hword := (cur_sub_eq_zero_iff x.cur n).1 hlast
      have hbatch : (n + 1 + 255 - x.cur.toNat) / 256 = (n + 255 - x.cur.toNat) / 256 + 1 := by omega
      rw [hlast, Context.advance_withCur_zero, hbatch, Context.shuffles_succ, show (0 : Index) - 1 = 255 by decide]
    · have hword := (cur_sub_eq_zero_iff x.cur n).not.1 hlast
      have hbatch : (n + 1 + 255 - x.cur.toNat) / 256 = (n + 255 - x.cur.toNat) / 256 := by omega
      rw [Context.advance_withCur_of_ne hlast, hbatch]

/-- How many Shuffles `n` moves run, by the round counter (R257). -/
theorem Context.advance_iterate_c (n : Nat) (x : Context w) :
    (Context.advance^[n] x).c = x.c + BitVec.ofNat w.bits ((n + 255 - x.cur.toNat) / 256) := by
  rw [Context.advance_iterate, Context.withCur_c, Context.shuffles_c]

/-- Where `n` moves leave the cursor. -/
theorem Context.advance_iterate_cur (n : Nat) (x : Context w) : (Context.advance^[n] x).cur = x.cur - BitVec.ofNat 8 n := by
  rw [Context.advance_iterate, Context.withCur_cur]

/-- The word that the cursor selects after `n` moves: which element of which batch. -/
theorem Context.advance_iterate_currentWord (n : Nat) (x : Context w) :
    (Context.advance^[n] x).currentWord =
      (x.shuffles ((n + 255 - x.cur.toNat) / 256)).res.read (x.cur - BitVec.ofNat 8 n) := by
  rw [Context.advance_iterate, Context.withCur_currentWord]

/-- From a full batch, the cursor after `n` moves. -/
theorem full_sub_eq (n : Nat) : (255 : Index) - BitVec.ofNat 8 n = BitVec.ofNat 8 (255 - n % 256) := by
  apply BitVec.eq_of_toNat_eq
  simp only [BitVec.toNat_sub, BitVec.ofNat_eq_ofNat, BitVec.toNat_ofNat]
  omega

/-- Settles O39: the cursor's closed form from `CUR = 255`, where a batch boundary falls after each 256 words. -/
theorem reshuffleSchedule : Obligations.ReshuffleSchedule := by
  intro s hcur
  have hbatch : ∀ j, (j + 255 - s.core.ctx.cur.toNat) / 256 = j / 256 := fun j => by
    rw [hcur]
    exact congrArg (· / 256) (Nat.add_sub_cancel j 255)
  refine ⟨fun j => CoreState.nextWord^[j] s.core, fun j => execTimes_next j s, fun j => ?_, fun j => ?_, fun j => ?_⟩
  · rw [CoreState.nextWord_iterate_out, Context.advance_iterate_currentWord, hbatch, hcur, full_sub_eq]
  · rw [CoreState.nextWord_iterate_ctx, Context.advance_iterate_c, hbatch]
  · rw [CoreState.nextWord_iterate_ctx, Context.advance_iterate_cur, hcur, full_sub_eq]

/-! ## STREAM -/

/-- STREAM moves the cursor once a word. -/
@[simp] theorem CoreState.stream_ctx (n : Nat) (k : CoreState w) : (k.stream n).ctx = Context.advance^[n] k.ctx := by
  rw [CoreState.stream_eq]

@[simp] theorem CoreState.stream_slots (n : Nat) (k : CoreState w) : (k.stream n).outBuf.slots = k.outBuf.slots := by
  rw [CoreState.stream_eq]
  exact k.streamWords_slots n

@[simp] theorem CoreState.stream_out (n : Nat) (k : CoreState w) : (k.stream n).out = k.out := by
  rw [CoreState.stream_eq]

/-- A slot that STREAM writes holds the word that the cursor selects after as many moves. -/
theorem CoreState.stream_read_of_lt {n i : Nat} (hi : i < n) (k : CoreState w) :
    (k.stream n).outBuf.read i = some (Context.advance^[i] k.ctx).currentWord := by
  rw [CoreState.stream_eq, CoreState.streamWords_read, if_pos hi]

/-- A slot beyond the words of a STREAM reads as before. -/
theorem CoreState.stream_read_of_le {n i : Nat} (hi : n ≤ i) (k : CoreState w) :
    (k.stream n).outBuf.read i = k.outBuf.read i := by
  rw [CoreState.stream_eq, CoreState.streamWords_read, if_neg (Nat.not_lt.2 hi)]

/-- Settles O40: STREAM's context is the cursor's closed form. -/
theorem streamRunsOneShufflePerBatchBoundary : Obligations.StreamRunsOneShufflePerBatchBoundary := by
  refine fun count s hslots => ⟨s.core.stream count.toNat, exec_stream_of_slots hslots, ?shuffles, ?cursor⟩
  case shuffles => rw [CoreState.stream_ctx, Context.advance_iterate_c]
  case cursor =>
    rw [CoreState.stream_ctx, Context.advance_iterate_cur, BitVec.toNat_sub, BitVec.toNat_ofNat]
    have hcur : s.core.ctx.cur.toNat < 256 := s.core.ctx.cur.isLt
    omega

/-- The ghost state after one NEXT or more is that after one: a word read after a word read records nothing new (R33, R34). -/
theorem CoreState.nextWord_iterate_ghost (n : Nat) (k : CoreState w) :
    (CoreState.nextWord^[n + 1] k).gran = k.markWordRead.gran ∧ (CoreState.nextWord^[n + 1] k).mixed = k.markWordRead.mixed := by
  induction n with
  | zero => exact ⟨rfl, rfl⟩
  | succ n ih =>
    obtain ⟨hgran, hmixed⟩ := ih
    rw [Function.iterate_succ_apply']
    generalize CoreState.nextWord^[n + 1] k = l at hgran hmixed ⊢
    cases hbefore : k.gran <;> simp [CoreState.nextWord, hgran, hmixed, hbefore]

/-- STREAM and as many NEXTs record the same. -/
theorem CoreState.stream_ghost (n : Nat) (k : CoreState w) :
    (k.stream n).gran = (CoreState.nextWord^[n] k).gran ∧ (k.stream n).mixed = (CoreState.nextWord^[n] k).mixed := by
  cases n with
  | zero => rw [CoreState.stream_zero]; exact ⟨rfl, rfl⟩
  | succ n =>
    obtain ⟨hgran, hmixed⟩ := k.nextWord_iterate_ghost n
    rw [hgran, hmixed, CoreState.stream_of_pos n.succ_pos]
    simp

/-- Settles O37: STREAM and the NEXTs move the cursor alike, and the words they read are those at the cursor between the moves. -/
theorem streamEqualsThatManyNexts : Obligations.StreamEqualsThatManyNexts := by
  intro count s hslots
  obtain ⟨hgran, hmixed⟩ := s.core.stream_ghost count.toNat
  refine ⟨s.core.stream count.toNat, fun n => CoreState.nextWord^[n] s.core, exec_stream_of_slots hslots,
    fun n => execTimes_next n s, ?ctx, hgran, hmixed, fun i hi => ?written, fun i hi => s.core.stream_read_of_le hi,
    s.core.stream_out _⟩
  case ctx => rw [CoreState.stream_ctx, CoreState.nextWord_iterate_ctx]
  case written => rw [CoreState.stream_read_of_lt hi, CoreState.nextWord_iterate_out]

/-- Settles O38: the second STREAM goes on from the cursor that the first one left. -/
theorem streamsComposeByAddition : Obligations.StreamsComposeByAddition := by
  intro p q s hfits hslots
  have hsum : (p + q).toNat = p.toNat + q.toNat := by
    rw [BitVec.toNat_add]
    exact Nat.mod_eq_of_lt (by omega)
  refine ⟨s.core.stream p.toNat, (s.core.stream p.toNat).stream q.toNat, s.core.stream (p + q).toNat,
    exec_stream_of_slots (by omega), exec_stream_of_slots (s := { s with core := s.core.stream p.toNat }) ?slots,
    exec_stream_of_slots (by omega), ?ctx, fun i hi => ?first, fun i hi => ?second⟩
  case slots =>
    rw [CoreState.stream_slots]
    omega
  case ctx =>
    rw [CoreState.stream_ctx, CoreState.stream_ctx, CoreState.stream_ctx, hsum, Nat.add_comm, Function.iterate_add_apply]
  case first => rw [CoreState.stream_read_of_lt hi, CoreState.stream_read_of_lt (by omega)]
  case second =>
    rw [CoreState.stream_read_of_lt hi, CoreState.stream_read_of_lt (by omega), CoreState.stream_ctx, Nat.add_comm,
      Function.iterate_add_apply]

/-! ## NEXTB -/

/-- Up to three byte reads stay in the word (R171). -/
theorem Context.advanceByte_iterate_lt {x : Context w} (h : x.bidx = 0) {j : Nat} (hj : j < 4) :
    Context.advanceByte^[j] x = x.withBidx (BitVec.ofNat 2 j) := by
  induction j with
  | zero => exact (Context.set_bidx_self h).symm
  | succ j ih =>
    have hinside : (x.withBidx (BitVec.ofNat 2 j)).bidx ≠ 3 := fun e => by
      have hj3 := congrArg BitVec.toNat e
      simp only [Context.withBidx, BitVec.ofNat_eq_ofNat, BitVec.toNat_ofNat] at hj3
      omega
    rw [Function.iterate_succ_apply', ih (by omega), Context.advanceByte_of_ne hinside, BitVec.ofNat_add]
    rfl

/-- Four byte reads move to the next word's first byte (R174). -/
theorem Context.advanceByte_iterate_four {x : Context w} (h : x.bidx = 0) : Context.advanceByte^[4] x = x.advance := by
  have hbidx : x.advance.bidx = 0 := x.advance_bidx.trans h
  rw [Function.iterate_succ_apply', Context.advanceByte_iterate_lt h (by omega), Context.advanceByte_of_last rfl,
    Context.advance_withBidx]
  exact Context.set_bidx_self hbidx

/-- Four byte reads a word (R174). -/
theorem Context.advanceByte_iterate_mul_four {x : Context w} (h : x.bidx = 0) (n : Nat) :
    Context.advanceByte^[4 * n] x = Context.advance^[n] x ∧ (Context.advance^[n] x).bidx = 0 := by
  induction n with
  | zero => exact ⟨rfl, h⟩
  | succ n ih =>
    obtain ⟨hctx, hbidx⟩ := ih
    rw [show 4 * (n + 1) = 4 + 4 * n by omega, Function.iterate_add_apply, hctx, Context.advanceByte_iterate_four hbidx,
      Function.iterate_succ_apply', Context.advance_bidx]
    exact ⟨rfl, hbidx⟩

/-- A NEXTB puts into `OUT` the byte that the byte cursor selects. -/
theorem CoreState.nextByte_iterate_out (n : Nat) (k : CoreState w) :
    (CoreState.nextByte^[n + 1] k).out =
      (byteOf (Context.advanceByte^[n] k.ctx).currentWord (Context.advanceByte^[n] k.ctx).bidx).setWidth _ := by
  rw [Function.iterate_succ_apply', ← CoreState.nextByte_iterate_ctx]
  rfl

/-- Byte `j` of a word is item `j` of its little-endian layout (R64, R172). -/
theorem getElem?_wordToLittleEndian_of_lt_four (v : Word w) {j : Nat} (hj : j < 4) :
    (wordToLittleEndian v)[j]? = some (byteOf v (BitVec.ofNat 2 j)) := by
  have hbytes : 4 ≤ w.bits / 8 := by cases w <;> decide
  rw [getElem?_wordToLittleEndian v (by omega), byteOf, BitVec.toNat_ofNat, Nat.mod_eq_of_lt (by omega)]

/-- Settles O42: the byte cursor after `4 * n + j` NEXTBs is at byte `j` of the word after `n` moves. -/
theorem fourNextbsReadOneWord : Obligations.FourNextbsReadOneWord := by
  intro s hbyte hbidx
  refine ⟨fun n => CoreState.nextByte^[n] s.core, fun n => CoreState.nextWord^[n] s.core, fun n => execTimes_nextb n hbyte,
    fun n => execTimes_next n s, fun n => ?_⟩
  obtain ⟨hwords, hfirst⟩ := Context.advanceByte_iterate_mul_four hbidx n
  rw [CoreState.nextByte_iterate_ctx, CoreState.nextWord_iterate_ctx]
  refine ⟨hwords, fun j hj => ⟨_, getElem?_wordToLittleEndian_of_lt_four _ hj, ?_⟩⟩
  rw [CoreState.nextByte_iterate_out, Nat.add_comm (4 * n), Function.iterate_add_apply, hwords,
    Context.advanceByte_iterate_lt hfirst hj]
  rfl

end Sys2Proof.Machine
end

section
/-!
PROOFS of the family other, the host's side: the configuration is fixed (R2), the register block (R59 to R61), the fields of `STATUS` (R26),
the reset action, the binding of buffers (R50, R57), and the step of a waiting command word, placed words included.
-/

namespace Sys2Proof.Machine

/-! ## The step of a host action -/

/-- Settles O4: a step runs a command, takes the exception or carries out a host action, and none of them writes the configuration. -/
theorem stepNeverWritesTheConfiguration : Obligations.StepNeverWritesTheConfiguration := by
  intro s t h
  obtain ⟨-, rfl⟩ | ⟨act, rest, -, ⟨word, k, i, -, -, hexec⟩ | ⟨word, k, cause, -, -, rfl⟩ | ⟨k, -, rfl⟩⟩ := step_cases h
  · rfl
  · exact exec_config (s := { s with core := k }) hexec
  · rfl
  · rfl

/-- Settles O50: an idle core fetches nothing. -/
theorem idleCoreHoldsItsState : Obligations.IdleCoreHoldsItsState := by
  intro s hidle
  simp only [step, fetch, hidle]

/-- A waiting command word that decodes runs its command. -/
theorem step_of_decode_ok {s : State} {v : CommandWord} {rest : List (HostAction s.config.width)} {i : Instr}
    (hwait : s.commandWaiting v rest) (hdecode : decode s.config v = .ok i) : step s = exec i (s.withPending rest) := by
  have hdecode' : decode (s.withPending rest).config v = .ok i := hdecode
  rw [step_of_commandWaiting hwait, submit, hdecode']

/-- Settles O49: a waiting command word that decodes runs its command. -/
theorem stepRunsTheDecodedCommand : Obligations.StepRunsTheDecodedCommand :=
  fun _ _ _ _ hwait hdecode => step_of_decode_ok hwait hdecode

/-- Settles O3: the reset action rebuilds the core, with the host's part and the fault mark carried over. -/
theorem resetLeavesTheHostsPart : Obligations.ResetLeavesTheHostsPart := by
  intro s t draw rest hreset h
  rw [step_of_resetWaiting hreset] at h
  cases h
  exact ⟨_, rfl, rfl, rfl, rfl, rfl, rfl⟩

section Action

variable {s : State} {act : HostAction s.config.width} {rest : List (HostAction s.config.width)}

/-- A step whose host action is carried out at once. -/
theorem step_of_done {k : CoreState s.config.width} (hpending : s.core.pending = act :: rest)
    (hact : hostAct s.config act { s.core with pending := rest } = .done k) : step s = .next { s with core := k } := by
  simp only [step, fetch, hpending, hact]

/-- A step whose host action the core does not answer. -/
theorem step_of_refused {r : Refusal} (hpending : s.core.pending = act :: rest)
    (hact : hostAct s.config act { s.core with pending := rest } = .refused r) : step s = .refused r := by
  simp only [step, fetch, hpending, hact]

/-- The step of a host action that is no write to `CMD` carries the action out and does no more. -/
theorem done_of_step {t : State} (hpending : s.core.pending = act :: rest)
    (hact : ∀ word, act ≠ .write s.config.regBase (.d32 word)) (h : step s = .next t) :
    ∃ k, hostAct s.config act { s.core with pending := rest } = .done k ∧ t = { s with core := k } := by
  obtain ⟨hidle, -⟩ | ⟨act', rest', hpending', haction⟩ := step_cases h
  · rw [hpending] at hidle
    cases hidle
  rw [hpending] at hpending'
  cases hpending'
  obtain ⟨word, k, -, hcommand, -⟩ | ⟨word, k, -, hcommand, -⟩ | hdone := haction
  · exact absurd (hostAct_command_write hcommand) (hact word)
  · exact absurd (hostAct_command_write hcommand) (hact word)
  · exact hdone

end Action

/-! ## The register block -/

section RegisterBlock

variable {cfg : Config} {addr offset : Nat} {size : BusSize} {p : Port}

/-- The block reaches at least to the low byte of `OUT` (R60). -/
theorem lt_registerBlockSize (cfg : Config) (h : offset ≤ 0x10) : offset < registerBlockSize cfg := by
  have hbytes : 0 < cfg.width.bits / 8 := by cases cfg.width <;> decide
  rw [registerBlockSize]
  omega

/-- The place that an access reaches at an offset of the block. -/
theorem portAt_of_offset (hin : offset < registerBlockSize cfg) (h : portAtOffset cfg offset size = some p) :
    portAt cfg (cfg.regBase + offset) size = .ok p := by
  simp [portAt, Nat.not_le.2 hin, h]

/-- The core does not answer outside the block (R61). -/
theorem portAt_outside (h : addr < cfg.regBase ∨ cfg.regBase + 0x10 + cfg.width.bits / 8 ≤ addr) :
    portAt cfg addr size = .error .outsideRegisterBlock := by
  by_cases hbelow : addr < cfg.regBase
  · exact if_pos hbelow
  · have habove : registerBlockSize cfg ≤ addr - cfg.regBase := by
      rw [registerBlockSize]
      omega
    rw [portAt, if_neg hbelow, if_pos habove]

/-- A whole-word access at offset 0x10 reaches `OUT` (R59, R60). -/
theorem portAtOffset_out (cfg : Config) : portAtOffset cfg 0x10 (wordSize cfg.width) = some .out := by
  obtain ⟨variant, -, -, -, -⟩ := cfg
  cases variant <;> rfl

/-- A 32-bit access at offset 0x10 of a 64-bit core reaches the half that the half order puts first (R60). -/
theorem portAtOffset_firstHalf (hwidth : cfg.width = .w64) :
    portAtOffset cfg 0x10 .b32 = some (.outHalf (cfg.outHalfOrder == .highFirst)) := by
  simp [portAtOffset, hwidth]

/-- A 32-bit access at offset 0x14 of a 64-bit core reaches the other half (R60). -/
theorem portAtOffset_secondHalf (hwidth : cfg.width = .w64) :
    portAtOffset cfg 0x14 .b32 = some (.outHalf (cfg.outHalfOrder == .lowFirst)) := by
  simp [portAtOffset, hwidth]

/-- A 64-bit core's block has a second half of `OUT` (R60). -/
theorem lt_registerBlockSize_of_w64 (hwidth : cfg.width = .w64) : 0x14 < registerBlockSize cfg := by
  rw [registerBlockSize, hwidth]
  decide

/-- The width of a whole word's data is that of a whole-word access. -/
theorem busDataSize_wordData (w : Width) (v : Word w) : busDataSize (wordData w v) = wordSize w := by
  cases w <;> rfl

/-- A write that reaches a place other than `CMD` is ignored (R59). -/
theorem hostWrite_of_port {data : BusData} (k : CoreState cfg.width) (hport : portAt cfg addr (busDataSize data) = .ok p)
    (hp : p ≠ .cmd) : hostWrite cfg addr data k = .done k := by
  cases p with
  | cmd => exact absurd rfl hp
  | status | errCmd | reserved | out | outHalf => simp only [hostWrite, hport]

/-- A write that the core answers, and that submits no command, leaves the core (R59). -/
theorem hostWrite_done {data : BusData} {k l : CoreState cfg.width} (h : hostWrite cfg addr data k = .done l) : l = k := by
  unfold hostWrite at h
  split at h <;> cases h
  rfl

/-- A read that the core answers writes the host's read data alone (R59). -/
theorem hostRead_done {k l : CoreState cfg.width} (h : hostRead cfg addr size k = .done l) :
    ∃ v, l = { k with readData := some v } := by
  unfold hostRead at h
  split at h <;> cases h
  exact ⟨_, rfl⟩

/-- What a host read returns does not depend on the host's next actions. -/
theorem portValue_withPending (k : CoreState cfg.width) (rest : List (HostAction cfg.width)) (p : Port) :
    portValue cfg { k with pending := rest } p = portValue cfg k p := by
  cases p with
  | outHalf high => cases high <;> rfl
  | cmd | status | errCmd | reserved | out => rfl

end RegisterBlock

/-- A host read in the block returns the value of the place that it reaches. -/
theorem readsAs_of_offset {s : State} {offset : Nat} {size : BusSize} {p : Port} (hin : offset < registerBlockSize s.config)
    (h : portAtOffset s.config offset size = some p) : s.readsAs offset size (portValue s.config s.core p) := by
  intro rest hpending
  refine step_of_done hpending ?_
  rw [hostAct, hostRead, portAt_of_offset hin h]
  simp only [portValue_withPending]

/-- Settles O51: the place at each offset, and what a read of that place returns. -/
theorem registerMapReads : Obligations.RegisterMapReads := by
  intro s
  have hblock : ∀ offset ≤ 0x10, offset < registerBlockSize s.config := fun _ => lt_registerBlockSize s.config
  refine ⟨readsAs_of_offset (p := .cmd) (hblock _ (by decide)) rfl, readsAs_of_offset (p := .status) (hblock _ (by decide)) rfl,
    readsAs_of_offset (p := .errCmd) (hblock _ (by decide)) rfl, readsAs_of_offset (p := .reserved) (hblock _ (by decide)) rfl,
    readsAs_of_offset (p := .out) (hblock _ (by decide)) (portAtOffset_out s.config), fun hwidth horder => ?low, fun hwidth horder => ?high⟩
  all_goals
    have hfirst := portAtOffset_firstHalf hwidth
    have hsecond := portAtOffset_secondHalf hwidth
    rw [horder] at hfirst hsecond
    exact ⟨readsAs_of_offset (hblock _ le_rfl) hfirst, readsAs_of_offset (lt_registerBlockSize_of_w64 hwidth) hsecond⟩

/-- A write in the block, to a place other than `CMD`, takes the host's action off the list and does no more (R59). -/
theorem step_of_ignoredWrite {s : State} {offset : Nat} {data : BusData} {p : Port} {rest : List (HostAction s.config.width)}
    (hin : offset < registerBlockSize s.config) (h : portAtOffset s.config offset (busDataSize data) = some p) (hp : p ≠ .cmd)
    (hpending : s.core.pending = .write (s.config.regBase + offset) data :: rest) :
    step s = .next { s with core := { s.core with pending := rest } } :=
  step_of_done hpending (hostWrite_of_port _ (portAt_of_offset hin h) hp)

/-- Settles O53: only a write at the block's base submits a command, a write elsewhere leaves the core, and a read gives its data. -/
theorem onlyCommandWritesHaveEffects : Obligations.OnlyCommandWritesHaveEffects := by
  refine ⟨fun s t addr data rest hpending haddr h => ?write, fun s t addr size rest hpending h => ?read,
    fun s v rest offset hoffset hpending => ?registers, fun s v rest hpending => ?out⟩
  case write =>
    obtain ⟨k, hdone, rfl⟩ := done_of_step hpending (fun word e => haddr (HostAction.write.inj e).1) h
    rw [hostWrite_done hdone]
  case read =>
    obtain ⟨k, hdone, rfl⟩ := done_of_step hpending (fun word e => nomatch e) h
    obtain ⟨v, rfl⟩ := hostRead_done hdone
    exact ⟨v, rfl⟩
  case registers =>
    obtain rfl | rfl | rfl := hoffset
    · exact step_of_ignoredWrite (p := .status) (lt_registerBlockSize _ (by decide)) rfl (by decide) hpending
    · exact step_of_ignoredWrite (p := .errCmd) (lt_registerBlockSize _ (by decide)) rfl (by decide) hpending
    · exact step_of_ignoredWrite (p := .reserved) (lt_registerBlockSize _ (by decide)) rfl (by decide) hpending
  case out =>
    refine step_of_ignoredWrite (p := .out) (lt_registerBlockSize _ le_rfl) ?_ (by decide) hpending
    rw [busDataSize_wordData, portAtOffset_out]

/-- Settles O54: no place of the block is reached from outside it. -/
theorem accessOutsideTheBlockIsRefused : Obligations.AccessOutsideTheBlockIsRefused := by
  refine fun s addr rest houtside => ⟨fun size hpending => step_of_refused hpending ?read,
    fun data hpending => step_of_refused hpending ?write⟩
  case read => rw [hostAct, hostRead, portAt_outside houtside]
  case write => simp only [hostAct, hostWrite, portAt_outside houtside]

/-- The bits of `STATUS` (R26). -/
theorem statusWord_bit (cfg : Config) (k : CoreState cfg.width) (i : Nat) :
    (statusWord cfg k).getLsbD i =
      if i = 0 then k.initDone else if i = 1 then k.illegal else if i < 5 then k.ecause.getLsbD (i - 2)
      else if i = 5 then cfg.width == .w64 else if i = 6 then cfg.byteMode else if i = 7 then cfg.peekEn else false := by
  simp only [statusWord, BitVec.getLsbD_append, BitVec.getLsbD_ofBool, Nat.sub_sub]
  by_cases hfield : i < 8
  · interval_cases i <;> simp
  · have hpast : ¬ i - 2 < 3 ∧ i - 1 ≠ 0 ∧ i - 5 ≠ 0 ∧ i - 6 ≠ 0 ∧ i - 7 ≠ 0 := by omega
    have habove : i ≠ 0 ∧ i ≠ 1 ∧ ¬ i < 5 ∧ i ≠ 5 ∧ i ≠ 6 ∧ i ≠ 7 := by omega
    simp [hpast, habove]

/-- Settles O52: the bits of `STATUS`, gathered into its fields. -/
theorem statusLayout : Obligations.StatusLayout := by
  intro cfg k v
  have hbit : ∀ i, v.getLsbD i = _ := statusWord_bit cfg k
  refine ⟨hbit 0, hbit 1, ?ecause, ?width, hbit 6, hbit 7, ?zeros⟩
  case ecause =>
    refine BitVec.eq_of_getLsbD_eq fun i hi => ?_
    simp [hbit, hi, show 2 + i ≠ 1 by omega, show 2 + i < 5 by omega]
  case width =>
    rw [hbit 5]
    exact beq_iff_eq
  case zeros =>
    refine BitVec.eq_of_getLsbD_eq fun i hi => ?_
    have habove : 8 + i ≠ 0 ∧ 8 + i ≠ 1 ∧ ¬ 8 + i < 5 ∧ 8 + i ≠ 5 ∧ 8 + i ≠ 6 ∧ 8 + i ≠ 7 := by omega
    rw [BitVec.getLsbD_extractLsb', hbit]
    simp [habove]

/-! ## Bound buffers -/

/-- What a memory of one list after another reads as: the first has precedence. -/
theorem Memory.read_append {α : Type} (m m' : Memory α) (i : Nat) :
    Memory.read (m ++ m') i = (Memory.read m i).or (Memory.read m' i) := by
  induction m with
  | nil => rfl
  | cons x m ih =>
    obtain ⟨j, u⟩ := x
    by_cases h : i = j <;> simp [Memory.read, h, ih]

/-- The part of a memory from index `l` on reads as the memory there. -/
theorem Memory.read_filter_of_le {α : Type} {l i : Nat} (hi : l ≤ i) (m : Memory α) :
    Memory.read (m.filter fun x => l ≤ x.1) i = Memory.read m i := by
  induction m with
  | nil => rfl
  | cons x m ih =>
    obtain ⟨j, u⟩ := x
    by_cases hj : l ≤ j
    · simp [Memory.read, hj, ih]
    · simp [Memory.read, hj, ih, show i ≠ j by omega]

/-- A bound seed buffer holds its bytes in order (R51). -/
theorem read_seedBufferOf (bytes : List Byte) (i : Nat) : Memory.read (α := Byte) (seedBufferOf bytes) i = bytes[i]? := by
  have hread := Memory.read_ofListFrom (α := Byte) 0 bytes i
  rwa [Nat.zero_add] at hread

/-- The seed bytes of a buffer with bytes enough (R51, R55). -/
theorem seedBytes_of_read {buf : SeedBuffer} {l : Nat} {bytes : List Byte} (hl : l ≤ bytes.length)
    (h : ∀ i < l, Memory.read (α := Byte) buf i = bytes[i]?) : seedBytes buf l = some (bytes.take l) := by
  refine Memory.readRange_eq_some.2 ⟨by simpa using hl, fun i hi => ?_⟩
  rw [Nat.zero_add, h i hi, List.getElem?_take_of_lt hi]

/-- A bound output buffer holds its words in order, as far as its slots go (R52). -/
theorem read_outBufferOf {w : Width} (slots : Nat) (contents : List (Word w)) (i : Nat) :
    (outBufferOf slots contents).read i = if i < slots then contents[i]? else none := by
  have hread := Memory.read_ofListFrom 0 (contents.take slots) i
  rw [Nat.zero_add, List.getElem?_take] at hread
  exact hread

/-- Settles O55: a binding makes the buffer from the list, and the buffer reads as the list. -/
theorem boundBuffersReadBack : Obligations.BoundBuffersReadBack := by
  refine ⟨fun s bytes rest hpending => ⟨seedBufferOf bytes, step_of_done hpending rfl, read_seedBufferOf bytes, fun l hl =>
    seedBytes_of_read hl fun i _ => read_seedBufferOf bytes i⟩, fun s slots contents rest hpending =>
    ⟨outBufferOf slots contents, step_of_done hpending rfl, rfl, read_outBufferOf slots contents⟩⟩

/-! ## Placed command words -/

/-- The bytes below `l` of a padded buffer: the buffer's own, and zero where it has none. -/
theorem read_padding {buf : SeedBuffer} {l i : Nat} (hi : i < l) :
    ((List.range l).map fun i => (Memory.read (α := Byte) buf i).getD 0)[i]? = some ((Memory.read (α := Byte) buf i).getD 0) := by
  simp [hi]

/-- Padding keeps the bytes that the buffer has. -/
theorem read_padSeedBuffer {buf : SeedBuffer} {i : Nat} {b : Byte} (l : Nat) (h : Memory.read (α := Byte) buf i = some b) :
    Memory.read (α := Byte) (padSeedBuffer buf l) i = some b := by
  unfold padSeedBuffer
  split
  · exact h
  rw [Memory.read_append (α := Byte), read_seedBufferOf]
  by_cases hi : i < l
  · rw [read_padding hi, h]
    rfl
  · rw [List.getElem?_eq_none (by simpa using hi), Option.none_or, Memory.read_filter_of_le (α := Byte) (Nat.not_lt.1 hi), h]

/-- A padded buffer gives the seed bytes. -/
theorem seedBytes_padSeedBuffer (buf : SeedBuffer) (l : Nat) : ∃ seed, seedBytes (padSeedBuffer buf l) l = some seed := by
  unfold padSeedBuffer
  split
  · exact ⟨_, ‹_›⟩
  refine Memory.readRange_isSome fun i hi => ?_
  rw [Nat.zero_add, Memory.read_append (α := Byte), read_seedBufferOf, read_padding hi]
  rfl

/-- What the core needs to carry a command out: INIT its seed bytes, STREAM its slots (R57). -/
def CoreState.ReadyFor {w : Width} (k : CoreState w) : Instr → Prop
  | .init abs len => ∃ seed, seedBytes k.seedBuf (effectiveLength abs len) = some seed
  | .stream false count => count.toNat ≤ k.outBuf.slots
  | _ => True

/-- A command completes on a core that is ready for it. -/
theorem exec_completes {i : Instr} {s : State} (h : s.core.ReadyFor i) : ∃ t, exec i s = .next t := by
  have present : ∀ (j : Instr) f, ∃ t, s.runIfPresent j f = .next t := fun j f => by
    cases hwf : j.wellFormed s.config with
    | true => exact ⟨_, State.runIfPresent_of_wf hwf⟩
    | false => exact ⟨_, State.runIfPresent_of_not_wf hwf⟩
  cases i with
  | init abs len =>
    obtain ⟨seed, hseed⟩ := h
    exact ⟨_, exec_init_of_seed hseed⟩
  | stream abs count =>
    cases abs with
    | true => exact ⟨s, exec_stream_absent count s⟩
    | false => exact ⟨_, exec_stream_of_slots h⟩
  | next => exact ⟨_, exec_next s⟩
  | erase => exact ⟨_, exec_erase s⟩
  | nextb | peekRes | peekMem | peekA | peekB | peekC | peekCur | peekBidx => exact present _ _

/-- The host's preparation makes the core ready for the command (log entry 4). -/
theorem prepareBuffers_ready {cfg : Config} {v : CommandWord} {i : Instr} (h : decode cfg v = .ok i) (k : CoreState cfg.width) :
    (prepareBuffers cfg v k).ReadyFor i := by
  rw [prepareBuffers, h]
  cases i with
  | init abs len => exact seedBytes_padSeedBuffer _ _
  | stream abs count =>
    cases abs with
    | true => trivial
    | false => exact Nat.le_max_right _ _
  | next | nextb | erase | peekRes | peekMem | peekA | peekB | peekC | peekCur | peekBidx => trivial

/-- The host's preparation changes nothing but that it lengthens the buffers (log entry 4). -/
theorem prepareBuffers_frame {cfg : Config} {v : CommandWord} {i : Instr} (h : decode cfg v = .ok i) (k : CoreState cfg.width) :
    ∃ (seedBuf : SeedBuffer) (slots : Nat),
      prepareBuffers cfg v k = { k with seedBuf := seedBuf, outBuf := { k.outBuf with slots := slots } } ∧ k.outBuf.slots ≤ slots ∧
      ∀ j b, Memory.read (α := Byte) k.seedBuf j = some b → Memory.read (α := Byte) seedBuf j = some b := by
  rw [prepareBuffers, h]
  cases i with
  | init abs len => exact ⟨_, k.outBuf.slots, rfl, le_rfl, fun _ _ => read_padSeedBuffer _⟩
  | stream abs count =>
    cases abs with
    | true => exact ⟨k.seedBuf, k.outBuf.slots, rfl, le_rfl, fun _ _ hread => hread⟩
    | false => exact ⟨k.seedBuf, _, rfl, Nat.le_max_left _ _, fun _ _ hread => hread⟩
  | next | nextb | erase | peekRes | peekMem | peekA | peekB | peekC | peekCur | peekBidx =>
    exact ⟨k.seedBuf, k.outBuf.slots, rfl, le_rfl, fun _ _ hread => hread⟩

/-- A placed word that decodes: the next step is its command at the state prepared for it. -/
theorem step_withFetchWord {s : State} {v : CommandWord} {i : Instr} (h : decode s.config v = .ok i) :
    step (s.withFetchWord 32 v.toNat) = exec i { s with core := prepareBuffers s.config v s.core } := by
  have hword : BitVec.ofNat 32 (v.toNat % 2 ^ 32) = v := by rw [Nat.mod_eq_of_lt v.isLt, BitVec.ofNat_toNat, BitVec.setWidth_eq]
  have hplaced : s.withFetchWord 32 v.toNat = s.modify fun k => launch s.config v k := by rw [State.withFetchWord, hword]
  rw [hplaced]
  exact step_of_decode_ok (s := s.modify fun k => launch s.config v k) (rest := (prepareBuffers s.config v s.core).pending) rfl h

/-- Settles O56: the state prepared for the word differs in its buffers alone, and the command completes there. -/
theorem placedWordRunsNext : Obligations.PlacedWordRunsNext := by
  intro s v i hdecode
  obtain ⟨seedBuf, slots, hk, hslots, hread⟩ := prepareBuffers_frame hdecode s.core
  obtain ⟨t, ht⟩ := exec_completes (s := { s with core := prepareBuffers s.config v s.core }) (prepareBuffers_ready hdecode s.core)
  have hstep := step_withFetchWord hdecode
  rw [hk] at hstep ht
  exact ⟨seedBuf, slots, t, hstep, ht, hslots, hread⟩

end Sys2Proof.Machine
end

section
/-!
PROOFS of the family other, what commands and steps keep: which command writes what (R27, R35, R38), the fault mark of the run (R217), and
the invariant of the machine.
-/

namespace Sys2Proof.Machine

variable {i : Instr} {s t : State}

/-! ## What a command writes -/

/-- A command that the configuration lacks takes the exception with its own word (R79, log entry 9). -/
theorem exec_of_absent (h : i.wellFormed s.config = false) :
    exec i s = .next (s.takeIllegalCommand (encode i) .featureAbsent) := by
  cases i with
  | init | next | stream | erase => cases h
  | nextb | peekRes | peekMem | peekA | peekB | peekC | peekCur | peekBidx => exact State.runIfPresent_of_not_wf h

/-- Settles O47: the exception writes the three status fields and the fault mark. -/
theorem execOfAbsentCommandTakesTheException : Obligations.ExecOfAbsentCommandTakesTheException :=
  fun _ _ habsent => exec_of_absent habsent

/-- STREAM leaves everything but the context, the output buffer and the ghost state of granularity. -/
theorem CoreState.stream_frame {w : Width} (n : Nat) (k : CoreState w) :
    k.stream n = { k with
      ctx := (k.stream n).ctx, outBuf := (k.stream n).outBuf, gran := (k.stream n).gran, mixed := (k.stream n).mixed } := by
  rw [CoreState.stream_eq]

/-- No command writes the configuration, the seed buffer, the host's next actions or its read data (R38). -/
theorem exec_frame (h : exec i s = .next t) :
    ∃ k : CoreState s.config.width, t = { s with core := k } ∧
      k.seedBuf = s.core.seedBuf ∧ k.pending = s.core.pending ∧ k.readData = s.core.readData := by
  obtain ⟨-, rfl⟩ | ⟨-, ⟨_, _, _, -, -, rfl⟩ | ⟨-, rfl⟩ | ⟨_, -, rfl⟩ | ⟨count, -, -, rfl⟩ | ⟨-, rfl⟩ | ⟨-, rfl⟩ | ⟨_, -, rfl⟩⟩ :=
    exec_cases h
  case inr.inr.inr.inr.inl =>
    refine ⟨s.core.stream count.toNat, rfl, ?_⟩
    rw [CoreState.stream_frame]
    exact ⟨rfl, rfl, rfl⟩
  all_goals exact ⟨_, rfl, rfl, rfl, rfl⟩

/-- Only INIT and ERASE write `INIT_DONE` (R35). -/
theorem exec_initDone (h : exec i s = .next t) (hinit : ∀ abs len, i ≠ .init abs len) (herase : i ≠ .erase) :
    t.core.initDone = s.core.initDone := by
  obtain ⟨-, rfl⟩ | ⟨-, ⟨abs, len, _, rfl, -⟩ | ⟨-, rfl⟩ | ⟨_, -, rfl⟩ | ⟨count, -, -, rfl⟩ | ⟨-, rfl⟩ | ⟨rfl, -⟩ | ⟨_, -, rfl⟩⟩ :=
    exec_cases h
  case inr.inl => exact absurd rfl (hinit abs len)
  case inr.inr.inr.inr.inl =>
    rw [State.modify_core, CoreState.stream_frame]
  case inr.inr.inr.inr.inr.inr.inl => exact absurd rfl herase
  all_goals rfl

/-- Settles O16: INIT sets it, ERASE clears it, and nothing else but a reset writes it. -/
theorem onlyInitAndEraseWriteInitDone : Obligations.OnlyInitAndEraseWriteInitDone := by
  refine ⟨fun i s t h => ⟨?init, ?erase, exec_initDone h⟩, fun _ _ _ => rfl, fun _ _ => rfl⟩
  case init =>
    rintro ⟨abs, len, rfl⟩
    obtain ⟨seed, rfl⟩ := exec_init_next h
    rfl
  case erase =>
    rintro rfl
    cases h
    rfl

/-- INIT and STREAM leave `OUT` (R27). -/
theorem exec_init_or_stream_out {k : CoreState s.config.width} (h : exec i s = .next { s with core := k })
    (hi : (∃ abs len, i = .init abs len) ∨ ∃ abs count, i = .stream abs count) : k.out = s.core.out := by
  obtain ⟨cfg, core⟩ := s
  obtain ⟨abs, len, rfl⟩ | ⟨abs, count, rfl⟩ := hi
  · obtain ⟨seed, ht⟩ := exec_init_next h
    cases ht
    rfl
  · cases abs with
    | true =>
      rw [exec_stream_absent] at h
      cases h
      rfl
    | false =>
      cases exec_stream_next h
      exact core.stream_out count.toNat

/-- Settles O17: each command by its effect on `OUT`, and an absent one by the exception, which leaves it. -/
theorem onlyReadsPeeksAndEraseWriteOut : Obligations.OnlyReadsPeeksAndEraseWriteOut := by
  intro i s t h
  obtain ⟨k, rfl, -⟩ := exec_frame h
  refine ⟨k, rfl, fun habsent => ?absent, ?next, ?nextb, fun v hv hwf => ?peek, ?erase, exec_init_or_stream_out h⟩
  case absent =>
    rw [exec_of_absent habsent] at h
    cases h
    rfl
  case next =>
    rintro rfl
    cases h
    rfl
  case nextb =>
    rintro rfl hwf
    rw [exec_nextb_of_byteMode hwf] at h
    cases h
    rfl
  case peek =>
    rw [exec_peek_of_wf hv hwf] at h
    cases h
    rfl
  case erase =>
    rintro rfl
    cases h
    rfl

/-- Only STREAM writes the output buffer (R52). -/
theorem exec_outBuf {k : CoreState s.config.width} (h : exec i s = .next { s with core := k })
    (hi : ∀ count, i ≠ .stream false count) : k.outBuf = s.core.outBuf := by
  obtain ⟨cfg, core⟩ := s
  obtain ⟨-, ht⟩ | ⟨-, ⟨_, _, _, -, -, ht⟩ | ⟨-, ht⟩ | ⟨_, -, ht⟩ | ⟨count, rfl, -⟩ | ⟨-, ht⟩ | ⟨-, ht⟩ | ⟨_, -, ht⟩⟩ := exec_cases h
  case inr.inr.inr.inr.inl => exact absurd rfl (hi count)
  all_goals
    cases ht
    rfl

/-- A PEEK, present or absent, leaves the context (R192). -/
theorem exec_peek_ctx {k : CoreState s.config.width} {v : Word s.config.width} (h : exec i s = .next { s with core := k })
    (hv : peekedValue s.core.ctx i = some v) : k.ctx = s.core.ctx := by
  cases hwf : i.wellFormed s.config with
  | true =>
    rw [exec_peek_of_wf hv hwf] at h
    cases h
    rfl
  | false =>
    rw [exec_of_absent hwf] at h
    cases h
    rfl

/-- Two contexts of one batch, which differ at most in the cursors. -/
def Context.SameBatch {w : Width} (x y : Context w) : Prop := x.res = y.res ∧ x.mem = y.mem ∧ x.a = y.a ∧ x.b = y.b ∧ x.c = y.c

/-- As many words as the cursor can go down are of one batch. -/
theorem Context.advance_iterate_sameBatch {w : Width} {n : Nat} {x : Context w} (h : n ≤ x.cur.toNat) :
    (Context.advance^[n] x).SameBatch x := by
  have hnone : (n + 255 - x.cur.toNat) / 256 = 0 := by omega
  rw [Context.advance_iterate, hnone]
  exact ⟨rfl, rfl, rfl, rfl, rfl⟩

/-- A word read above the batch's last word is of the batch. -/
theorem Context.advance_sameBatch {w : Width} {x : Context w} (h : x.cur ≠ 0) : x.advance.SameBatch x := by
  rw [Context.advance_of_ne h]
  exact ⟨rfl, rfl, rfl, rfl, rfl⟩

/-- A byte read above the batch's last byte is of the batch. -/
theorem Context.advanceByte_sameBatch {w : Width} {x : Context w} (h : x.cur ≠ 0 ∨ x.bidx ≠ 3) : x.advanceByte.SameBatch x := by
  by_cases hbyte : x.bidx = 3
  · rw [Context.advanceByte_of_last hbyte, Context.advance_of_ne (h.resolve_right (not_not_intro hbyte))]
    exact ⟨rfl, rfl, rfl, rfl, rfl⟩
  · rw [Context.advanceByte_of_ne hbyte]
    exact ⟨rfl, rfl, rfl, rfl, rfl⟩

/-- A NEXT or NEXTB that crosses no batch boundary leaves the batch (R161, R171). -/
theorem exec_read_sameBatch {k : CoreState s.config.width} (h : exec i s = .next { s with core := k })
    (hi : i = .next ∨ i = .nextb) (hinside : s.core.ctx.cur ≠ 0 ∨ (i = .nextb ∧ s.core.ctx.bidx ≠ 3)) :
    k.ctx.SameBatch s.core.ctx := by
  obtain rfl | rfl := hi
  · cases h
    exact Context.advance_sameBatch (hinside.resolve_right fun e => nomatch e.1)
  · cases hbyte : s.config.byteMode with
    | true =>
      rw [exec_nextb_of_byteMode hbyte] at h
      cases h
      exact Context.advanceByte_sameBatch (hinside.imp_right And.right)
    | false =>
      rw [exec_nextb_of_no_byteMode hbyte] at h
      cases h
      exact ⟨rfl, rfl, rfl, rfl, rfl⟩

/-- Settles O48: the frame of every command, and the columns that some commands write. -/
theorem commandsWriteOnlyTheirColumns : Obligations.CommandsWriteOnlyTheirColumns := by
  intro i s t h
  obtain ⟨k, rfl, hseed, hpending, hread⟩ := exec_frame h
  refine ⟨k, rfl, hseed, hpending, hread, exec_outBuf h, fun hwf => CoreState.illegalReport_eq_iff.1 (exec_illegalReport hwf h), ?ctx,
    exec_read_sameBatch h, ?stream⟩
  case ctx =>
    rintro (habsent | ⟨v, hv⟩)
    · rw [exec_of_absent habsent] at h
      cases h
      rfl
    · exact exec_peek_ctx h hv
  case stream =>
    rintro count rfl hinside
    cases exec_stream_next h
    have hbatch := Context.advance_iterate_sameBatch hinside
    rw [← CoreState.stream_ctx] at hbatch
    exact hbatch

/-! ## What a host action writes -/

/-- What a host action that is no command can do (R225). -/
theorem hostAct_done_cases {cfg : Config} {act : HostAction cfg.width} {k l : CoreState cfg.width} (h : hostAct cfg act k = .done l) :
    l = k ∨ (∃ v, l = { k with readData := some v }) ∨ (∃ bytes, l = { k with seedBuf := seedBufferOf bytes }) ∨
    (∃ slots contents, l = { k with outBuf := outBufferOf slots contents }) ∨ ∃ draw, l = CoreState.applyReset cfg k draw := by
  cases act with
  | write addr data => exact .inl (hostWrite_done h)
  | read addr size => exact .inr (.inl (hostRead_done h))
  | bindSeed bytes =>
    cases h
    exact .inr (.inr (.inl ⟨bytes, rfl⟩))
  | bindOut slots contents =>
    cases h
    exact .inr (.inr (.inr (.inl ⟨slots, contents, rfl⟩)))
  | reset draw =>
    cases h
    exact .inr (.inr (.inr (.inr ⟨draw, rfl⟩)))

/-! ## The fault mark -/

/-- A command that the configuration has leaves the marks. -/
theorem exec_faults (hwf : i.wellFormed s.config = true) (h : exec i s = .next t) : t.core.faults = s.core.faults := by
  obtain ⟨habsent, -⟩ | ⟨-, heffect⟩ := exec_cases h
  · exact absurd hwf (Bool.eq_false_iff.1 habsent)
  obtain ⟨_, _, _, -, -, rfl⟩ | ⟨-, rfl⟩ | ⟨_, -, rfl⟩ | ⟨count, -, -, rfl⟩ | ⟨-, rfl⟩ | ⟨-, rfl⟩ | ⟨_, -, rfl⟩ := heffect
  case inr.inr.inr.inr.inl => rw [State.modify_core, CoreState.stream_frame]
  all_goals rfl

/-- A host action that is no command leaves the marks, a reset included (log entry 10). -/
theorem hostAct_done_faults {cfg : Config} {act : HostAction cfg.width} {k l : CoreState cfg.width} (h : hostAct cfg act k = .done l) :
    l.faults = k.faults := by
  obtain rfl | ⟨_, rfl⟩ | ⟨_, rfl⟩ | ⟨_, _, rfl⟩ | ⟨_, rfl⟩ := hostAct_done_cases h
  all_goals rfl

/-- A step adds at most one mark before those there. -/
theorem step_faults (h : step s = .next t) : ∃ marks, t.core.faults = marks ++ s.core.faults := by
  obtain ⟨-, rfl⟩ | ⟨act, rest, -, ⟨word, k, i, hact, hdecode, hexec⟩ | ⟨word, k, cause, hact, -, rfl⟩ | ⟨k, hact, rfl⟩⟩ := step_cases h
  · exact ⟨[], rfl⟩
  · obtain ⟨rfl, -⟩ := hostAct_command hact
    exact ⟨[], exec_faults (s := s.withPending rest) (wellFormed_of_decode_eq_ok hdecode) hexec⟩
  · obtain ⟨rfl, -⟩ := hostAct_command hact
    exact ⟨[⟨cause, word⟩], rfl⟩
  · exact ⟨[], hostAct_done_faults (k := (s.withPending rest).core) hact⟩

/-- Settles O15: only the exception writes the marks, and it puts its own before the others. -/
theorem faultMarkIsKeptForTheRun : Obligations.FaultMarkIsKeptForTheRun := by
  refine fun s t h => ⟨step_faults h, fun v rest cause hwait hdecode => ?_⟩
  rw [step_of_decode_error hwait hdecode] at h
  cases h
  rfl

/-! ## The invariant -/

section Invariant

variable {cfg : Config} {k : CoreState cfg.width}

/-- Advance leaves `b` the batch's last word (R138). -/
theorem Context.advance_lastWord {w : Width} {x : Context w} (h : x.b = x.res.read 255) : x.advance.b = x.advance.res.read 255 := by
  by_cases hcur : x.cur = 0
  · rw [Context.advance_of_zero hcur]
    exact x.shuffle_last.symm
  · rw [Context.advance_of_ne hcur]
    exact h

/-- Any number of moves leaves `b` the batch's last word. -/
theorem Context.advance_iterate_lastWord {w : Width} {x : Context w} (h : x.b = x.res.read 255) (n : Nat) :
    (Context.advance^[n] x).b = (Context.advance^[n] x).res.read 255 := by
  induction n with
  | zero => exact h
  | succ n ih =>
    rw [Function.iterate_succ_apply']
    exact Context.advance_lastWord ih

/-- A byte read leaves `b` the batch's last word. -/
theorem Context.advanceByte_lastWord {w : Width} {x : Context w} (h : x.b = x.res.read 255) :
    x.advanceByte.b = x.advanceByte.res.read 255 := by
  by_cases hbyte : x.bidx = 3
  · rw [Context.advanceByte_of_last hbyte]
    exact Context.advance_lastWord h
  · rw [Context.advanceByte_of_ne hbyte]
    exact h

/-- After a word read some read is recorded. -/
theorem CoreState.markWordRead_gran_ne_none {w : Width} (k : CoreState w) : k.markWordRead.gran ≠ .none := by
  cases hgran : k.gran <;> simp [hgran]

/-- After a byte read some read is recorded. -/
theorem CoreState.markByteRead_gran_ne_none {w : Width} (k : CoreState w) : k.markByteRead.gran ≠ .none := by
  cases hgran : k.gran <;> simp [hgran]

/-- The exception keeps the invariant: its registers tell of the word that it is taken for. -/
theorem CoreState.Inv.takeIllegal (h : k.Inv cfg) {word : CommandWord} {cause : Cause} (hdecode : decode cfg word = .error cause) :
    (k.takeIllegal word cause).Inv cfg where
  seedBuf := h.seedBuf
  outBuf := h.outBuf
  bidx := h.bidx
  status := .inr ⟨rfl, ⟨cause, word⟩, k.faults, rfl, rfl, rfl, hdecode⟩
  ghost := h.ghost
  lastWord := h.lastWord

/-- INIT keeps the invariant: its Shuffle ends with `b` in the last word. -/
theorem CoreState.Inv.initialise (h : k.Inv cfg) (seed : List Byte) : (k.initialise cfg.byteMode seed).Inv cfg where
  seedBuf := h.seedBuf
  outBuf := h.outBuf
  bidx hbyte := (k.ctx.initialise_bidx cfg.byteMode seed).trans ((if_neg (Bool.eq_false_iff.1 hbyte)).trans (h.bidx hbyte))
  status := h.status
  ghost hmixed := nomatch hmixed
  lastWord _ := Context.initialise_lastWord _ seed _

/-- NEXT keeps the invariant. -/
theorem CoreState.Inv.nextWord (h : k.Inv cfg) : k.nextWord.Inv cfg where
  seedBuf := h.seedBuf
  outBuf := h.outBuf
  bidx hbyte := k.ctx.advance_bidx.trans (h.bidx hbyte)
  status := h.status
  ghost _ := CoreState.markWordRead_gran_ne_none _
  lastWord hdone := Context.advance_lastWord (h.lastWord hdone)

/-- STREAM keeps the invariant while it stays inside the bound buffer. -/
theorem CoreState.Inv.stream (h : k.Inv cfg) {n : Nat} (hn : n ≤ k.outBuf.slots) : (k.stream n).Inv cfg := by
  have hghost : (k.stream n).mixed = true → (k.stream n).gran ≠ .none := by
    cases n with
    | zero =>
      rw [CoreState.stream_zero]
      exact h.ghost
    | succ n =>
      rw [CoreState.stream_of_pos n.succ_pos]
      exact fun _ => CoreState.markWordRead_gran_ne_none _
  have hbidx : (k.stream n).ctx.bidx = k.ctx.bidx := bidx_eq_of_withBidx (CoreState.stream_withBidx n) k
  have hlast : k.initDone = true → (k.stream n).ctx.b = (k.stream n).ctx.res.read 255 := fun hdone => by
    rw [CoreState.stream_ctx]
    exact Context.advance_iterate_lastWord (h.lastWord hdone) n
  have hbuf : (k.stream n).outBuf.wf := by
    rw [CoreState.stream_eq]
    exact CoreState.streamWords_wf h.outBuf hn
  rw [CoreState.stream_frame]
  exact ⟨h.seedBuf, hbuf, fun hbyte => hbidx.trans (h.bidx hbyte), h.status, hghost, hlast⟩

/-- NEXTB keeps the invariant. It is a command where byte mode is present. -/
theorem CoreState.Inv.nextByte (h : k.Inv cfg) (hbyte : cfg.byteMode = true) : k.nextByte.Inv cfg where
  seedBuf := h.seedBuf
  outBuf := h.outBuf
  bidx habsent := absurd hbyte (Bool.eq_false_iff.1 habsent)
  status := h.status
  ghost _ := CoreState.markByteRead_gran_ne_none _
  lastWord hdone := Context.advanceByte_lastWord (h.lastWord hdone)

/-- ERASE keeps the invariant. -/
theorem CoreState.Inv.erase (h : k.Inv cfg) : k.erase.Inv cfg where
  seedBuf := h.seedBuf
  outBuf := h.outBuf
  bidx _ := rfl
  status := h.status
  ghost hmixed := nomatch hmixed
  lastWord hdone := nomatch hdone

/-- The invariant says nothing of `OUT`. -/
theorem CoreState.Inv.setOut (h : k.Inv cfg) (v : Word cfg.width) : (k.setOut v).Inv cfg :=
  ⟨h.seedBuf, h.outBuf, h.bidx, h.status, h.ghost, h.lastWord⟩

/-- The invariant says nothing of the host's next actions. -/
theorem CoreState.Inv.withPending (h : k.Inv cfg) (rest : List (HostAction cfg.width)) :
    ({ k with pending := rest } : CoreState _).Inv cfg :=
  ⟨h.seedBuf, h.outBuf, h.bidx, h.status, h.ghost, h.lastWord⟩

/-- The invariant says nothing of the host's read data. -/
theorem CoreState.Inv.withReadData (h : k.Inv cfg) (v : Option BusData) : ({ k with readData := v } : CoreState _).Inv cfg :=
  ⟨h.seedBuf, h.outBuf, h.bidx, h.status, h.ghost, h.lastWord⟩

/-- A bound seed buffer is in canonical form. -/
theorem CoreState.Inv.bindSeed (h : k.Inv cfg) (bytes : List Byte) : ({ k with seedBuf := seedBufferOf bytes } : CoreState _).Inv cfg :=
  ⟨seedBufferOf_wf bytes, h.outBuf, h.bidx, h.status, h.ghost, h.lastWord⟩

/-- A bound output buffer is in canonical form. -/
theorem CoreState.Inv.bindOut (h : k.Inv cfg) (slots : Nat) (contents : List (Word cfg.width)) :
    ({ k with outBuf := outBufferOf slots contents } : CoreState _).Inv cfg :=
  ⟨h.seedBuf, outBufferOf_wf slots contents, h.bidx, h.status, h.ghost, h.lastWord⟩

/-- A reset of a core whose buffers are in canonical form gives one that meets the invariant, whatever the draw. -/
theorem CoreState.applyReset_inv (hseed : Memory.wf (α := Byte) k.seedBuf) (hout : k.outBuf.wf) (draw : Context cfg.width) :
    (CoreState.applyReset cfg k draw).Inv cfg where
  seedBuf := hseed
  outBuf := hout
  bidx hbyte := by simp [hbyte]
  status := .inl ⟨rfl, rfl, rfl⟩
  ghost hmixed := nomatch hmixed
  lastWord hdone := nomatch hdone

/-- Settles O57: power-on is a reset of a core with no buffer bound. -/
theorem resetMeetsTheInvariant : Obligations.ResetMeetsTheInvariant := by
  intro cfg draw
  have hout : (CoreState.atReset cfg draw).outBuf.wf := outBufferOf_wf 0 []
  exact CoreState.applyReset_inv (k := CoreState.atReset cfg draw) List.Pairwise.nil hout draw

/-- A host action that is no command keeps the invariant. -/
theorem CoreState.Inv.hostAct_done {act : HostAction cfg.width} {l : CoreState cfg.width} (h : k.Inv cfg)
    (hact : hostAct cfg act k = .done l) : l.Inv cfg := by
  obtain rfl | ⟨v, rfl⟩ | ⟨bytes, rfl⟩ | ⟨slots, contents, rfl⟩ | ⟨draw, rfl⟩ := hostAct_done_cases hact
  · exact h
  · exact h.withReadData v
  · exact h.bindSeed bytes
  · exact h.bindOut slots contents
  · exact CoreState.applyReset_inv h.seedBuf h.outBuf draw

end Invariant

/-- A command that the configuration has keeps the invariant. -/
theorem State.Inv.exec (hinv : s.Inv) (hwf : i.wellFormed s.config = true) (h : exec i s = .next t) : t.Inv := by
  obtain ⟨habsent, -⟩ | ⟨-, heffect⟩ := exec_cases h
  · exact absurd hwf (Bool.eq_false_iff.1 habsent)
  obtain ⟨_, _, seed, -, -, rfl⟩ | ⟨-, rfl⟩ | ⟨_, -, rfl⟩ | ⟨count, -, hslots, rfl⟩ | ⟨rfl, rfl⟩ | ⟨-, rfl⟩ | ⟨v, -, rfl⟩ := heffect
  · exact CoreState.Inv.initialise hinv seed
  · exact CoreState.Inv.nextWord hinv
  · exact hinv
  · exact CoreState.Inv.stream hinv hslots
  · exact CoreState.Inv.nextByte hinv hwf
  · exact CoreState.Inv.erase hinv
  · exact CoreState.Inv.setOut hinv v

/-- Settles O58: the commands, the exception and the host's other actions each keep the invariant. -/
theorem stepKeepsTheInvariant : Obligations.StepKeepsTheInvariant := by
  intro s t hinv h
  obtain ⟨-, rfl⟩ | ⟨act, rest, -, haction⟩ := step_cases h
  · exact hinv
  have hrest : (s.withPending rest).Inv := CoreState.Inv.withPending hinv rest
  obtain ⟨word, k, i, hact, hdecode, hexec⟩ | ⟨word, k, cause, hact, hdecode, rfl⟩ | ⟨k, hact, rfl⟩ := haction
  · obtain ⟨rfl, -⟩ := hostAct_command hact
    exact hrest.exec (wellFormed_of_decode_eq_ok hdecode) hexec
  · obtain ⟨rfl, -⟩ := hostAct_command hact
    exact CoreState.Inv.takeIllegal hrest hdecode
  · exact CoreState.Inv.hostAct_done hrest hact

end Sys2Proof.Machine
end
